-- ==== Sys2Proof/Word.lean ====
section
/-! DEFINITION. The word types of the CHIP-8 core (00_scope.md R7, section 4). -/

namespace Sys2Proof

/-- A 4-bit instruction field: a register index or a sprite height (30_encoding.md R92). -/
abbrev Nibble := BitVec 4

/-- A byte: a general register, a timer, a memory byte. -/
abbrev Byte := BitVec 8

/-- A 12-bit address field `nnn` (30_encoding.md R92). -/
abbrev Addr12 := BitVec 12

/-- A 16-bit value: `PC`, `I`, a stack slot, an instruction word. -/
abbrev Word := BitVec 16

/-- `zext_16`: widen with zeros to 16 bits (00_scope.md section 4). -/
abbrev zext16 {n : Nat} (v : BitVec n) : Word := v.setWidth 16

/-- The register index of the flag register VF (10_state.md R23). -/
abbrev vF : Nibble := 0xF#4

end Sys2Proof
end

