-- ==== Sys2Proof/Syntax.lean ====
section
/-! DEFINITION. The instructions: one constructor per row of spec/opcode_table.json
(30_encoding.md R101), with the operands its rule names. Bits that a named row does not examine
are no operand (log 8); a family-default NOP row keeps its word's low 12 bits (log 7). -/

namespace Sys2Proof

/-- The operations of 30_encoding.md R101. -/
inductive Instr where
  /-- `CLS` (43_display.md R241), canonical word 00E0. -/
  | cls
  /-- `RET` (40_control.md R131), canonical word 00EE. -/
  | ret
  /-- `JP nnn` (40_control.md R132), 1nnn. -/
  | jp (nnn : Addr12)
  /-- `CALL nnn` (40_control.md R133), 2nnn. -/
  | call (nnn : Addr12)
  /-- `SE Vx, kk` (40_control.md R135), 3xkk. -/
  | seImm (x : Nibble) (kk : Byte)
  /-- `SNE Vx, kk` (40_control.md R136), 4xkk. -/
  | sneImm (x : Nibble) (kk : Byte)
  /-- `SE Vx, Vy` (40_control.md R137), 5xy0. -/
  | seReg (x y : Nibble)
  /-- `LD Vx, kk` (41_alu.md R171), 6xkk. -/
  | ldImm (x : Nibble) (kk : Byte)
  /-- `ADD Vx, kk` (41_alu.md R172), 7xkk. -/
  | addImm (x : Nibble) (kk : Byte)
  /-- `LD Vx, Vy` (41_alu.md R173), 8xy0. -/
  | ldReg (x y : Nibble)
  /-- `OR Vx, Vy` (41_alu.md R174), 8xy1. -/
  | orReg (x y : Nibble)
  /-- `AND Vx, Vy` (41_alu.md R175), 8xy2. -/
  | andReg (x y : Nibble)
  /-- `XOR Vx, Vy` (41_alu.md R176), 8xy3. -/
  | xorReg (x y : Nibble)
  /-- `ADD Vx, Vy` (41_alu.md R177), 8xy4. -/
  | addReg (x y : Nibble)
  /-- `SUB Vx, Vy` (41_alu.md R178), 8xy5. -/
  | subReg (x y : Nibble)
  /-- `SHR Vx {, Vy}` (41_alu.md R179), 8xy6. -/
  | shr (x y : Nibble)
  /-- `SUBN Vx, Vy` (41_alu.md R180), 8xy7. -/
  | subnReg (x y : Nibble)
  /-- `SHL Vx {, Vy}` (41_alu.md R181), 8xyE. -/
  | shl (x y : Nibble)
  /-- `SNE Vx, Vy` (40_control.md R138), 9xy0. -/
  | sneReg (x y : Nibble)
  /-- `LD I, nnn` (42_index_memory.md R210), Annn. -/
  | ldI (nnn : Addr12)
  /-- `JP V0, nnn` (40_control.md R139), Bnnn. -/
  | jpV0 (nnn : Addr12)
  /-- `RND Vx, kk` (41_alu.md R182), Cxkk. -/
  | rnd (x : Nibble) (kk : Byte)
  /-- `DRW Vx, Vy, n` (43_display.md R242), Dxyn. -/
  | drw (x y n : Nibble)
  /-- `SKP Vx` (44_keys_timers.md R261), canonical word Ex9E. -/
  | skp (x : Nibble)
  /-- `SKNP Vx` (44_keys_timers.md R262), canonical word ExA1. -/
  | sknp (x : Nibble)
  /-- `LD Vx, DT` (44_keys_timers.md R263), Fx07. -/
  | ldVxDt (x : Nibble)
  /-- `LD Vx, K` (44_keys_timers.md R266), Fx0A. -/
  | ldVxK (x : Nibble)
  /-- `LD DT, Vx` (44_keys_timers.md R264), Fx15. -/
  | ldDtVx (x : Nibble)
  /-- `LD ST, Vx` (44_keys_timers.md R265), Fx18. -/
  | ldStVx (x : Nibble)
  /-- `ADD I, Vx` (42_index_memory.md R211), Fx1E. -/
  | addI (x : Nibble)
  /-- `LD F, Vx` (42_index_memory.md R212), Fx29. -/
  | ldF (x : Nibble)
  /-- `LD B, Vx` (42_index_memory.md R213), Fx33. -/
  | ldB (x : Nibble)
  /-- `LD [I], Vx` (42_index_memory.md R214), Fx55. -/
  | ldMemVx (x : Nibble)
  /-- `LD Vx, [I]` (42_index_memory.md R215), Fx65. -/
  | ldVxMem (x : Nibble)
  /-- `NOP`, default of family 0x0 (40_control.md R130); `u` is w[11:0]. -/
  | nop0 (u : Addr12)
  /-- `NOP`, default of family 0x8 (40_control.md R130); `u` is w[11:0]. -/
  | nop8 (u : Addr12)
  /-- `NOP`, default of family 0xE (40_control.md R130); `u` is w[11:0]. -/
  | nopE (u : Addr12)
  /-- `NOP`, default of family 0xF (40_control.md R130); `u` is w[11:0]. -/
  | nopF (u : Addr12)
  deriving DecidableEq, Repr

end Sys2Proof
end

