-- ==== Sys2Proof/WellFormed.lean ====
section
/-! DEFINITION. Well-formed instructions. Decoding imposes no operand constraint (30_encoding.md
R102); the one check is that a family-default NOP holds bits its family leaves unassigned
(40_control.md R130). -/

namespace Sys2Proof

/-- The selector `n` = w[3:0] of a low-12-bits field. -/
def selN (u : Addr12) : Nibble := u.extractLsb' 0 4

/-- The selector `kk` = w[7:0] of a low-12-bits field. -/
def selKK (u : Addr12) : Byte := u.extractLsb' 0 8

/-- The selectors family 0x0 assigns (30_encoding.md R95). -/
def assigned0 : List Nibble := [0x0#4, 0xE#4]

/-- The selectors family 0x8 assigns (30_encoding.md R96). -/
def assigned8 : List Nibble := [0x0#4, 0x1#4, 0x2#4, 0x3#4, 0x4#4, 0x5#4, 0x6#4, 0x7#4, 0xE#4]

/-- The selectors family 0xE assigns (30_encoding.md R97). -/
def assignedE : List Nibble := [0xE#4, 0x1#4]

/-- The selectors family 0xF assigns (30_encoding.md R98). -/
def assignedF : List Byte :=
  [0x07#8, 0x0A#8, 0x15#8, 0x18#8, 0x1E#8, 0x29#8, 0x33#8, 0x55#8, 0x65#8]

/-- The well-formedness check, one line per constructor. -/
def Instr.wf : Instr → Bool
  | .cls => true
  | .ret => true
  | .jp _ => true
  | .call _ => true
  | .seImm _ _ => true
  | .sneImm _ _ => true
  | .seReg _ _ => true
  | .ldImm _ _ => true
  | .addImm _ _ => true
  | .ldReg _ _ => true
  | .orReg _ _ => true
  | .andReg _ _ => true
  | .xorReg _ _ => true
  | .addReg _ _ => true
  | .subReg _ _ => true
  | .shr _ _ => true
  | .subnReg _ _ => true
  | .shl _ _ => true
  | .sneReg _ _ => true
  | .ldI _ => true
  | .jpV0 _ => true
  | .rnd _ _ => true
  | .drw _ _ _ => true
  | .skp _ => true
  | .sknp _ => true
  | .ldVxDt _ => true
  | .ldVxK _ => true
  | .ldDtVx _ => true
  | .ldStVx _ => true
  | .addI _ => true
  | .ldF _ => true
  | .ldB _ => true
  | .ldMemVx _ => true
  | .ldVxMem _ => true
  | .nop0 u => !assigned0.contains (selN u)
  | .nop8 u => !assigned8.contains (selN u)
  | .nopE u => !assignedE.contains (selN u)
  | .nopF u => !assignedF.contains (selKK u)

/-- A well-formed instruction: one that some word decodes to. -/
abbrev Instr.WellFormed (i : Instr) : Prop := i.wf = true

end Sys2Proof
end

