-- ==== Sys2Proof/Decode.lean ====
section
/-! DEFINITION. Decoding of a 16-bit word (30_encoding.md R90 to R102), total, and the encoder
written from the same opcode map. -/

namespace Sys2Proof

/-- `op` = w[15:12] (30_encoding.md R92). -/
def fieldOp (w : Word) : Nibble := w.extractLsb' 12 4

/-- `x` = w[11:8] (30_encoding.md R92). -/
def fieldX (w : Word) : Nibble := w.extractLsb' 8 4

/-- `y` = w[7:4] (30_encoding.md R92). -/
def fieldY (w : Word) : Nibble := w.extractLsb' 4 4

/-- `n` = w[3:0] (30_encoding.md R92). -/
def fieldN (w : Word) : Nibble := w.extractLsb' 0 4

/-- `kk` = w[7:0] (30_encoding.md R92). -/
def fieldKK (w : Word) : Byte := w.extractLsb' 0 8

/-- `nnn` = w[11:0] (30_encoding.md R92). -/
def fieldNNN (w : Word) : Addr12 := w.extractLsb' 0 12

/-- Family 0x0, selected by `n` (30_encoding.md R95). -/
def decode0 (w : Word) : Instr :=
  match fieldN w with
  | 0x0#4 => .cls
  | 0xE#4 => .ret
  | _ => .nop0 (fieldNNN w)

/-- Family 0x8, selected by `n` (30_encoding.md R96). -/
def decode8 (w : Word) : Instr :=
  match fieldN w with
  | 0x0#4 => .ldReg (fieldX w) (fieldY w)
  | 0x1#4 => .orReg (fieldX w) (fieldY w)
  | 0x2#4 => .andReg (fieldX w) (fieldY w)
  | 0x3#4 => .xorReg (fieldX w) (fieldY w)
  | 0x4#4 => .addReg (fieldX w) (fieldY w)
  | 0x5#4 => .subReg (fieldX w) (fieldY w)
  | 0x6#4 => .shr (fieldX w) (fieldY w)
  | 0x7#4 => .subnReg (fieldX w) (fieldY w)
  | 0xE#4 => .shl (fieldX w) (fieldY w)
  | _ => .nop8 (fieldNNN w)

/-- Family 0xE, selected by `n` (30_encoding.md R97). -/
def decodeE (w : Word) : Instr :=
  match fieldN w with
  | 0xE#4 => .skp (fieldX w)
  | 0x1#4 => .sknp (fieldX w)
  | _ => .nopE (fieldNNN w)

/-- Family 0xF, selected by `kk` (30_encoding.md R98). -/
def decodeF (w : Word) : Instr :=
  match fieldKK w with
  | 0x07#8 => .ldVxDt (fieldX w)
  | 0x0A#8 => .ldVxK (fieldX w)
  | 0x15#8 => .ldDtVx (fieldX w)
  | 0x18#8 => .ldStVx (fieldX w)
  | 0x1E#8 => .addI (fieldX w)
  | 0x29#8 => .ldF (fieldX w)
  | 0x33#8 => .ldB (fieldX w)
  | 0x55#8 => .ldMemVx (fieldX w)
  | 0x65#8 => .ldVxMem (fieldX w)
  | _ => .nopF (fieldNNN w)

/-- Primary dispatch on `op` (30_encoding.md R94, R99); the last line is `op` = 0xF. -/
def decodeWord (w : Word) : Instr :=
  match fieldOp w with
  | 0x0#4 => decode0 w
  | 0x1#4 => .jp (fieldNNN w)
  | 0x2#4 => .call (fieldNNN w)
  | 0x3#4 => .seImm (fieldX w) (fieldKK w)
  | 0x4#4 => .sneImm (fieldX w) (fieldKK w)
  | 0x5#4 => .seReg (fieldX w) (fieldY w)
  | 0x6#4 => .ldImm (fieldX w) (fieldKK w)
  | 0x7#4 => .addImm (fieldX w) (fieldKK w)
  | 0x8#4 => decode8 w
  | 0x9#4 => .sneReg (fieldX w) (fieldY w)
  | 0xA#4 => .ldI (fieldNNN w)
  | 0xB#4 => .jpV0 (fieldNNN w)
  | 0xC#4 => .rnd (fieldX w) (fieldKK w)
  | 0xD#4 => .drw (fieldX w) (fieldY w) (fieldN w)
  | 0xE#4 => decodeE w
  | _ => decodeF w

/-- Why a byte sequence holds no instruction: no word is illegal (30_encoding.md R102), so the one
reason is that fewer than two bytes are left. -/
inductive DecodeReject where
  /-- Fewer than two bytes (R90: every instruction is two bytes). -/
  | truncated
  deriving DecidableEq, Repr

/-- Two bytes as a word, the first above the second (20_memory.md R61). -/
def wordOfBytes (hi lo : Byte) : Word := hi ++ lo

/-- Decode the instruction at the head of a byte sequence; the rest of the sequence is left over. -/
def decodeBytes : List Byte → Except DecodeReject (Instr × List Byte)
  | hi :: lo :: rest => .ok (decodeWord (wordOfBytes hi lo), rest)
  | [_] => .error .truncated
  | [] => .error .truncated

/-- A word from `op` and `nnn` (30_encoding.md R91). -/
def packNNN (op : Nibble) (nnn : Addr12) : Word := op ++ nnn

/-- A word from `op`, `x` and `kk` (30_encoding.md R91). -/
def packXKK (op x : Nibble) (kk : Byte) : Word := op ++ x ++ kk

/-- A word from the four nibbles `op`, `x`, `y`, `n` (30_encoding.md R91). -/
def packXYN (op x y n : Nibble) : Word := op ++ x ++ y ++ n

/-- The words of the opcode map (30_encoding.md R101). Where a row leaves bits unexamined, the
canonical word of its rule gives them (R95, R97, R99; log 8). -/
def encode : Instr → Word
  | .cls => 0x00E0#16
  | .ret => 0x00EE#16
  | .jp nnn => packNNN 0x1#4 nnn
  | .call nnn => packNNN 0x2#4 nnn
  | .seImm x kk => packXKK 0x3#4 x kk
  | .sneImm x kk => packXKK 0x4#4 x kk
  | .seReg x y => packXYN 0x5#4 x y 0x0#4
  | .ldImm x kk => packXKK 0x6#4 x kk
  | .addImm x kk => packXKK 0x7#4 x kk
  | .ldReg x y => packXYN 0x8#4 x y 0x0#4
  | .orReg x y => packXYN 0x8#4 x y 0x1#4
  | .andReg x y => packXYN 0x8#4 x y 0x2#4
  | .xorReg x y => packXYN 0x8#4 x y 0x3#4
  | .addReg x y => packXYN 0x8#4 x y 0x4#4
  | .subReg x y => packXYN 0x8#4 x y 0x5#4
  | .shr x y => packXYN 0x8#4 x y 0x6#4
  | .subnReg x y => packXYN 0x8#4 x y 0x7#4
  | .shl x y => packXYN 0x8#4 x y 0xE#4
  | .sneReg x y => packXYN 0x9#4 x y 0x0#4
  | .ldI nnn => packNNN 0xA#4 nnn
  | .jpV0 nnn => packNNN 0xB#4 nnn
  | .rnd x kk => packXKK 0xC#4 x kk
  | .drw x y n => packXYN 0xD#4 x y n
  | .skp x => packXKK 0xE#4 x 0x9E#8
  | .sknp x => packXKK 0xE#4 x 0xA1#8
  | .ldVxDt x => packXKK 0xF#4 x 0x07#8
  | .ldVxK x => packXKK 0xF#4 x 0x0A#8
  | .ldDtVx x => packXKK 0xF#4 x 0x15#8
  | .ldStVx x => packXKK 0xF#4 x 0x18#8
  | .addI x => packXKK 0xF#4 x 0x1E#8
  | .ldF x => packXKK 0xF#4 x 0x29#8
  | .ldB x => packXKK 0xF#4 x 0x33#8
  | .ldMemVx x => packXKK 0xF#4 x 0x55#8
  | .ldVxMem x => packXKK 0xF#4 x 0x65#8
  | .nop0 u => packNNN 0x0#4 u
  | .nop8 u => packNNN 0x8#4 u
  | .nopE u => packNNN 0xE#4 u
  | .nopF u => packNNN 0xF#4 u

/-- The high byte of a word, stored at the lower address (20_memory.md R61). -/
def hiByte (w : Word) : Byte := w.extractLsb' 8 8

/-- The low byte of a word, stored at the higher address (20_memory.md R61). -/
def loByte (w : Word) : Byte := w.extractLsb' 0 8

/-- The two bytes of an instruction, as memory holds them (20_memory.md R61). -/
def encodeBytes (i : Instr) : List Byte := [hiByte (encode i), loByte (encode i)]

/-- The word that spec/opcode_table.json numbers: bit 0 is the least significant bit of the one
word, and every bit from `nbits` up is 0. -/
def tableWord (nbits w : Nat) : Word := BitVec.ofNat 16 (w % 2 ^ nbits)

/-- The instruction the decoder reads from a table word laid out as memory holds it; a table row
of more than one word does not exist (30_encoding.md R90). -/
def decodeTableWord (nbits w : Nat) : Option Instr :=
  if nbits ≤ 16 then
    match decodeBytes [hiByte (tableWord nbits w), loByte (tableWord nbits w)] with
    | .ok (i, _) => some i
    | .error _ => none
  else none

/-- One named row of the opcode map (30_encoding.md R101): words with `w AND mask = bits`. -/
structure OpcodeRow where
  mask : Word
  bits : Word
  deriving DecidableEq, Repr

/-- The 34 named rows of 30_encoding.md R101, in the order of spec/opcode_table.json. -/
def namedRows : List OpcodeRow :=
  [⟨0xF00F, 0x0000⟩, ⟨0xF00F, 0x000E⟩, ⟨0xF000, 0x1000⟩, ⟨0xF000, 0x2000⟩, ⟨0xF000, 0x3000⟩,
   ⟨0xF000, 0x4000⟩, ⟨0xF000, 0x5000⟩, ⟨0xF000, 0x6000⟩, ⟨0xF000, 0x7000⟩, ⟨0xF00F, 0x8000⟩,
   ⟨0xF00F, 0x8001⟩, ⟨0xF00F, 0x8002⟩] ++
  [⟨0xF00F, 0x8003⟩, ⟨0xF00F, 0x8004⟩, ⟨0xF00F, 0x8005⟩, ⟨0xF00F, 0x8006⟩, ⟨0xF00F, 0x8007⟩,
   ⟨0xF00F, 0x800E⟩, ⟨0xF000, 0x9000⟩, ⟨0xF000, 0xA000⟩, ⟨0xF000, 0xB000⟩, ⟨0xF000, 0xC000⟩,
   ⟨0xF000, 0xD000⟩] ++
  [⟨0xF00F, 0xE00E⟩, ⟨0xF00F, 0xE001⟩, ⟨0xF0FF, 0xF007⟩, ⟨0xF0FF, 0xF00A⟩, ⟨0xF0FF, 0xF015⟩,
   ⟨0xF0FF, 0xF018⟩, ⟨0xF0FF, 0xF01E⟩, ⟨0xF0FF, 0xF029⟩, ⟨0xF0FF, 0xF033⟩, ⟨0xF0FF, 0xF055⟩,
   ⟨0xF0FF, 0xF065⟩]

/-- The four family-default NOP rows of 30_encoding.md R101: a word of the family that no named row
matches. -/
def familyRows : List OpcodeRow :=
  [⟨0xF000, 0x0000⟩, ⟨0xF000, 0x8000⟩, ⟨0xF000, 0xE000⟩, ⟨0xF000, 0xF000⟩]

/-- Whether a word has a row's fixed bits. -/
def OpcodeRow.fits (r : OpcodeRow) (w : Word) : Bool := w &&& r.mask == r.bits

/-- The place of an instruction's row in spec/opcode_table.json; 34 to 37 are the family-default
NOP rows of families 0x0, 0x8, 0xE and 0xF. -/
def Instr.row : Instr → Nat
  | .cls => 0
  | .ret => 1
  | .jp _ => 2
  | .call _ => 3
  | .seImm _ _ => 4
  | .sneImm _ _ => 5
  | .seReg _ _ => 6
  | .ldImm _ _ => 7
  | .addImm _ _ => 8
  | .ldReg _ _ => 9
  | .orReg _ _ => 10
  | .andReg _ _ => 11
  | .xorReg _ _ => 12
  | .addReg _ _ => 13
  | .subReg _ _ => 14
  | .shr _ _ => 15
  | .subnReg _ _ => 16
  | .shl _ _ => 17
  | .sneReg _ _ => 18
  | .ldI _ => 19
  | .jpV0 _ => 20
  | .rnd _ _ => 21
  | .drw _ _ _ => 22
  | .skp _ => 23
  | .sknp _ => 24
  | .ldVxDt _ => 25
  | .ldVxK _ => 26
  | .ldDtVx _ => 27
  | .ldStVx _ => 28
  | .addI _ => 29
  | .ldF _ => 30
  | .ldB _ => 31
  | .ldMemVx _ => 32
  | .ldVxMem _ => 33
  | .nop0 _ => 34
  | .nop8 _ => 35
  | .nopE _ => 36
  | .nopF _ => 37

/-- The bits of a word that its instruction keeps: the row's fixed bits and its fields. All bits,
but for those 30_encoding.md R95, R97 and R99 say are not examined. -/
def Instr.keptBits : Instr → Word
  | .cls => 0xF00F#16
  | .ret => 0xF00F#16
  | .seReg _ _ => 0xFFF0#16
  | .sneReg _ _ => 0xFFF0#16
  | .skp _ => 0xFF0F#16
  | .sknp _ => 0xFF0F#16
  | .jp _ => 0xFFFF#16
  | .call _ => 0xFFFF#16
  | .seImm _ _ => 0xFFFF#16
  | .sneImm _ _ => 0xFFFF#16
  | .ldImm _ _ => 0xFFFF#16
  | .addImm _ _ => 0xFFFF#16
  | .ldReg _ _ => 0xFFFF#16
  | .orReg _ _ => 0xFFFF#16
  | .andReg _ _ => 0xFFFF#16
  | .xorReg _ _ => 0xFFFF#16
  | .addReg _ _ => 0xFFFF#16
  | .subReg _ _ => 0xFFFF#16
  | .shr _ _ => 0xFFFF#16
  | .subnReg _ _ => 0xFFFF#16
  | .shl _ _ => 0xFFFF#16
  | .ldI _ => 0xFFFF#16
  | .jpV0 _ => 0xFFFF#16
  | .rnd _ _ => 0xFFFF#16
  | .drw _ _ _ => 0xFFFF#16
  | .ldVxDt _ => 0xFFFF#16
  | .ldVxK _ => 0xFFFF#16
  | .ldDtVx _ => 0xFFFF#16
  | .ldStVx _ => 0xFFFF#16
  | .addI _ => 0xFFFF#16
  | .ldF _ => 0xFFFF#16
  | .ldB _ => 0xFFFF#16
  | .ldMemVx _ => 0xFFFF#16
  | .ldVxMem _ => 0xFFFF#16
  | .nop0 _ => 0xFFFF#16
  | .nop8 _ => 0xFFFF#16
  | .nopE _ => 0xFFFF#16
  | .nopF _ => 0xFFFF#16

end Sys2Proof
end

