-- ==== Sys2Proof/Config.lean ====
section
/-! DEFINITION. The parameters the source leaves open (00_scope.md R8) and the free value of the
random draw (41_alu.md R183). The default of each parameter is `Machine.defaultConfig`. -/

namespace Sys2Proof

/-- `SHIFT_SOURCE`: the register 8xy6 and 8xyE read (00_scope.md R8, D7). -/
inductive ShiftSource where
  | x
  | y
  deriving DecidableEq, Repr

/-- `SE_VV_MODE`: `self` compares Vx with itself, `fixed` compares Vx with Vy (00_scope.md R8, D9). -/
inductive SeVvMode where
  | self
  | fixed
  deriving DecidableEq, Repr

/-- The configuration arguments of 00_scope.md R8, fixed for a machine. -/
structure Config where
  /-- `SHIFT_SOURCE` (41_alu.md R179, R181). -/
  shiftSource : ShiftSource
  /-- `VF_LAST`: the flag write follows the result write (41_alu.md R170). -/
  vfLast : Bool
  /-- `SE_VV_MODE` (40_control.md R137). -/
  seVvMode : SeVvMode
  /-- `LDST_I_INCR`: Fx55 and Fx65 advance I (42_index_memory.md R214, R215). -/
  ldstIIncr : Bool
  /-- `FX0A_CLEAR_KEY`: Fx0A clears the key it reports (44_keys_timers.md R266). -/
  fx0aClearKey : Bool
  /-- `FONT`: the bytes of 0x000 to 0x04F at reset (10_state.md R28). -/
  font : Vector Byte 80
  /-- `MEM_INIT`: the bytes of 0x050 to 0xFFF at reset, 0x00 where no cell is listed (R8, D14).
  DESIGN CHOICE (log 22): a cell with an address outside that range has no effect. -/
  memInit : List Host.Cell
  deriving DecidableEq, Repr

/-- FREE VALUE: the byte drawn by the n-th Cxkk of the machine. The spec leaves it free ("any
value in 0 to 255 that the model does not choose", 41_alu.md R183, D17); it has no body, so no
proof can see it (log 3). -/
opaque Config.freeByte : Nat → Byte

end Sys2Proof
end

