-- ==== Sys2Proof/Machine/Memory.lean ====
section
/-! DEFINITION. `MEM`, 4096 bytes of plain storage (10_state.md R27, 20_memory.md R60 to R66), held
as the list of cells that differ from the contents at reset (log 9). -/

namespace Sys2Proof.Machine

/-- The listed cells of `MEM`. -/
abbrev Memory := List Host.Cell

/-- The byte listed at an address. -/
def lookupCell : List Host.Cell → Nat → Option Byte
  | [], _ => none
  | (k, x) :: m, a => if k = a then some x else lookupCell m a

/-- What an unlisted address reads as: `FONT` below 0x050, `MEM_INIT` above (10_state.md R40). -/
def initByte (c : Config) (a : Nat) : Byte :=
  if h : a < 80 then c.font[a] else (lookupCell c.memInit a).getD 0x00#8

/-- The byte at an address below 4096. -/
def Memory.read (c : Config) (m : Memory) (a : Nat) : Byte :=
  (lookupCell m a).getD (initByte c a)

/-- List a cell in its place. -/
def putCell : Memory → Nat → Byte → Memory
  | [], a, b => [(a, b)]
  | (k, x) :: m, a, b =>
    if a < k then (a, b) :: (k, x) :: m
    else if a = k then (a, b) :: m
    else (k, x) :: putCell m a b

/-- Take a cell off the list. -/
def eraseCell : Memory → Nat → Memory
  | [], _ => []
  | (k, x) :: m, a => if k = a then m else (k, x) :: eraseCell m a

/-- Write one byte, keeping the canonical form (20_memory.md R65). -/
def Memory.write (c : Config) (m : Memory) (a : Nat) (b : Byte) : Memory :=
  if b = initByte c a then eraseCell m a else putCell m a b

/-- Write bytes at rising addresses from `a` (20_memory.md R75). -/
def Memory.writeMany (c : Config) : Memory → Nat → List Byte → Memory
  | m, _, [] => m
  | m, a, b :: bs => Memory.writeMany c (Memory.write c m a b) (a + 1) bs

/-- The `n` bytes from `a` up (20_memory.md R75). -/
def Memory.readMany (c : Config) (m : Memory) (a : Nat) : Nat → List Byte
  | 0 => []
  | n + 1 => Memory.read c m a :: Memory.readMany c m (a + 1) n

/-- The canonical form: addresses strictly rising and below 4096, and no cell equal to what its
address reads as when unlisted. -/
abbrev Memory.wf (c : Config) (m : Memory) : Prop :=
  m.Pairwise (fun p q => p.1 < q.1) ∧ ∀ p ∈ m, p.1 < 4096 ∧ p.2 ≠ initByte c p.1

end Sys2Proof.Machine
end

