-- ==== Sys2Proof/Machine/Parameters.lean ====
section
/-! DEFINITION. The default of every parameter of 00_scope.md R8 (log 2). -/

namespace Sys2Proof.Machine

/-- The default of `FONT`: the standard CHIP-8 font (10_state.md R28, D15), one glyph a line. -/
def standardFont : Vector Byte 80 :=
  #v[0xF0, 0x90, 0x90, 0x90, 0xF0,
     0x20, 0x60, 0x20, 0x20, 0x70,
     0xF0, 0x10, 0xF0, 0x80, 0xF0,
     0xF0, 0x10, 0xF0, 0x10, 0xF0,
     0x90, 0x90, 0xF0, 0x10, 0x10,
     0xF0, 0x80, 0xF0, 0x10, 0xF0,
     0xF0, 0x80, 0xF0, 0x90, 0xF0,
     0xF0, 0x10, 0x20, 0x40, 0x40,
     0xF0, 0x90, 0xF0, 0x90, 0xF0,
     0xF0, 0x90, 0xF0, 0x10, 0xF0,
     0xF0, 0x90, 0xF0, 0x90, 0x90,
     0xE0, 0x90, 0xE0, 0x90, 0xE0,
     0xF0, 0x80, 0x80, 0x80, 0xF0,
     0xE0, 0x90, 0x90, 0x90, 0xE0,
     0xF0, 0x80, 0xF0, 0x80, 0xF0,
     0xF0, 0x80, 0xF0, 0x80, 0x80]

/-- The defaults of 00_scope.md R8. -/
def defaultConfig : Config where
  shiftSource := .x
  vfLast := true
  seVvMode := .self
  ldstIIncr := false
  fx0aClearKey := false
  font := standardFont
  memInit := []

end Sys2Proof.Machine
end

