-- ==== Sys2Proof/Machine/State.lean ====
section
/-! DEFINITION. The Machine State (10_state.md R20) as plain data, the reasons a step can stop, and
reset (10_state.md R40). -/

namespace Sys2Proof.Machine

/-- The framebuffer: 32 rows of 64 pixels, true = on (10_state.md R35; log 15). -/
abbrev FrameBuffer := Vector (Vector Bool 64) 32

/-- The fault causes (60_exceptions.md R280). -/
inductive FaultCause where
  /-- A fetch with `PC > 0xFFE`. -/
  | fetchBounds
  /-- Dxyn, Fx33, Fx55 or Fx65 would touch an address above 0xFFF. -/
  | dataBounds
  /-- 2nnn with `SP = 16`. -/
  | stackOverflow
  /-- 00EE with `SP = 0`. -/
  | stackUnderflow
  /-- Ex9E or ExA1 with `V[x] > 15`. -/
  | keyRange
  deriving DecidableEq, Repr

/-- What FAULT records about a faulted core (10_state.md R38). -/
structure FaultRecord where
  /-- why the core stopped -/
  cause : FaultCause
  /-- `PC0`, the address of the faulting instruction -/
  fpc : Word
  /-- the faulting word, none for `FETCH_BOUNDS` -/
  fword : Option Word
  /-- the address, key value or `SP` at fault -/
  finfo : Word
  deriving DecidableEq, Repr

/-- `FAULT` (10_state.md R38). DESIGN CHOICE (log 6): the fields that mean something only while
FAULTED are held only then. -/
inductive FaultStatus where
  | run
  | faulted (r : FaultRecord)
  deriving DecidableEq, Repr

/-- Reasons for which a step stops without a next state: none. Every fault the spec names enters
`FAULT` and is a next state (60_exceptions.md R281, R284; log 4), so this type has no constructor. -/
inductive Fault where
  deriving DecidableEq, Repr

/-- Reasons for which an instruction has no meaning. -/
inductive Refusal where
  /-- Raised only by an arm of `exec` for an instruction not modelled yet (safe: the model stops
  where the hardware goes on). No arm raises it now. -/
  | notModelled (mnemonic : String)
  deriving DecidableEq, Repr

/-- The Machine State (10_state.md R20). -/
@[ext]
structure State where
  /-- `MEM`: the cells that differ from the contents at reset (R27; log 9) -/
  mem : Memory
  /-- `V[0..15]` (R21) -/
  v : Vector Byte 16
  /-- `I` (R29) -/
  i : Word
  /-- `PC` (R24) -/
  pc : Word
  /-- `STACK[0..15]` (R30) -/
  stack : Vector Word 16
  /-- `SP`, 0 to 16 (R31) -/
  sp : Fin 17
  /-- `DT` (R32) -/
  dt : Byte
  /-- `ST` (R33) -/
  st : Byte
  /-- `KEY[0..15]`, true = pressed (R34; log 15) -/
  key : Vector Bool 16
  /-- `FB` (R35) -/
  fb : FrameBuffer
  /-- `IR` (R36) -/
  ir : Word
  /-- `FAULT` (R38) -/
  fault : FaultStatus
  /-- the model's own: how many random draws have been taken (R37, 41_alu.md R183; log 3) -/
  draws : Nat
  /-- the model's own: the parameters of 00_scope.md R8, which nothing changes (log 1) -/
  cfg : Config
  deriving DecidableEq, Repr

/-- What a meaning or a step answers. -/
abbrev Result := Host.Outcome State Fault Refusal

/-- The state after construction under given parameters (10_state.md R40, 70_reset_and_hazards.md
R320; log 10). -/
def State.constructed (c : Config) : State where
  mem := []
  v := Vector.replicate 16 0x00#8
  i := 0x0000#16
  pc := 0x0200#16
  stack := Vector.replicate 16 0x0000#16
  sp := 0
  dt := 0x00#8
  st := 0x00#8
  key := Vector.replicate 16 false
  fb := Vector.replicate 32 (Vector.replicate 64 false)
  ir := 0x0000#16
  fault := .run
  draws := 0
  cfg := c

/-- The state after reset, every parameter at the spec's default (10_state.md R40; log 2). -/
def State.reset : State := State.constructed defaultConfig

end Sys2Proof.Machine
end

