-- ==== Sys2Proof/Machine/Ops.lean ====
section
/-! DEFINITION. The named operations over registers, memory, stack, keys and pixels, and taking a
fault. -/

namespace Sys2Proof.Machine

/-- `V[x]` (10_state.md R21). -/
def State.reg (s : State) (x : Nibble) : Byte := s.v[x.toNat]

/-- `V[x] <- b` (10_state.md R21). -/
def State.setReg (s : State) (x : Nibble) (b : Byte) : State :=
  { s with v := s.v.set x.toNat b }

/-- `PC <- p` (10_state.md R26). -/
def State.setPc (s : State) (p : Word) : State := { s with pc := p }

/-- `I <- p` (10_state.md R29). -/
def State.setI (s : State) (p : Word) : State := { s with i := p }

/-- The byte of `MEM` at an address (`MemRead`, 00_scope.md section 4). -/
def State.byteAt (s : State) (a : Nat) : Byte := s.mem.read s.cfg a

/-- `n` bytes of `MEM` from `a` up. -/
def State.bytesAt (s : State) (a n : Nat) : List Byte := s.mem.readMany s.cfg a n

/-- Store bytes from `a` up (`MemWrite`, 00_scope.md section 4). -/
def State.storeBytes (s : State) (a : Nat) (bs : List Byte) : State :=
  { s with mem := s.mem.writeMany s.cfg a bs }

/-- Write consecutive registers from `V[j]` up; there is no register above VF. -/
def loadRegs : State → Nat → List Byte → State
  | s, _, [] => s
  | s, j, b :: bs => loadRegs (if j < 16 then s.setReg (BitVec.ofNat 4 j) b else s) (j + 1) bs

/-- TAKING A FAULT (60_exceptions.md R281): `PC` is again the faulting instruction's address and
`FAULT` records cause, address, word and info. No vector is taken and no other state is saved; there
is no return from a fault (R283), only construction clears it. -/
def takeFault (c : FaultCause) (pc0 : Word) (w : Option Word) (info : Word) (s : State) : State :=
  { s with pc := pc0, fault := .faulted { cause := c, fpc := pc0, fword := w, finfo := info } }

/-- `raise Fault(c, info)` inside execute: `PC` holds `PC0 + 2` and `IR` the word (30_encoding.md
R114). A meaning raises before it writes anything, so only the advance is undone here; the `IR` write
is undone by `commit` (log 5). -/
def raise (c : FaultCause) (info : Word) (s : State) : Result :=
  .next (takeFault c (s.pc - 2) (some s.ir) info s)

/-- The first address above 0xFFF among `lo` and up (20_memory.md R63, 42_index_memory.md `check`). -/
def firstOutside (lo : Nat) : Word := BitVec.ofNat 16 (max lo 0x1000)

/-- `check(lo, hi)` before the rest of the instruction (42_index_memory.md, 20_memory.md R63). -/
def checked (lo hi : Nat) (s : State) (k : Result) : Result :=
  if hi > 0xFFF then raise .dataBounds (firstOutside lo) s else k

/-- Push a return address (10_state.md R31, 40_control.md R133). -/
def push (p : Word) (s : State) (k : State → Result) : Result :=
  if h : s.sp.val < 16 then
    k { s with stack := s.stack.set s.sp.val p, sp := ⟨s.sp.val + 1, by omega⟩ }
  else raise .stackOverflow 16 s

/-- Pop a return address (10_state.md R31, 40_control.md R131). -/
def pop (s : State) (k : Word → State → Result) : Result :=
  if h : 0 < s.sp.val then
    k (s.stack[s.sp.val - 1]) { s with sp := ⟨s.sp.val - 1, by omega⟩ }
  else raise .stackUnderflow 0 s

/-- `skip_if(c)` (40_control.md R134). -/
def skipIf (c : Bool) (s : State) : State := if c then s.setPc (s.pc + 2) else s

/-- Whether key `k` is pressed (10_state.md R34). -/
def State.pressed (s : State) (k : Nibble) : Bool := s.key[k.toNat]

/-- The least pressed key, if any (44_keys_timers.md R266). -/
def State.leastPressed (s : State) : Option Nibble :=
  ((List.range 16).map (BitVec.ofNat 4)).find? (fun k => s.pressed k)

/-- `KEY[k] <- 0` (44_keys_timers.md R266). -/
def State.releaseKey (s : State) (k : Nibble) : State := { s with key := s.key.set k.toNat false }

/-- `FB[c][r]` (10_state.md R35). -/
def pixel (fb : FrameBuffer) (c : Fin 64) (r : Fin 32) : Bool := fb[r][c]

/-- `FB[c][r] <- b` (10_state.md R35). -/
def setPixel (fb : FrameBuffer) (c : Fin 64) (r : Fin 32) (b : Bool) : FrameBuffer :=
  fb.set r (fb[r].set c b)

/-- The screen with every pixel off (43_display.md R241). -/
def clearScreen : FrameBuffer := Vector.replicate 32 (Vector.replicate 64 false)

/-- A column, wrapped modulo 64 (43_display.md R240). -/
def wrapCol (c : Nat) : Fin 64 := ⟨c % 64, by omega⟩

/-- A row, wrapped modulo 32 (43_display.md R240). -/
def wrapRow (r : Nat) : Fin 32 := ⟨r % 32, by omega⟩

/-- Toggle one pixel; the flag is set when the pixel was on (43_display.md R242). -/
def xorPixel (p : FrameBuffer × Bool) (c : Fin 64) (r : Fin 32) : FrameBuffer × Bool :=
  (setPixel p.1 c r (!pixel p.1 c r), p.2 || pixel p.1 c r)

/-- One sprite row from column offset `col` on; bit 7 is offset 0 (43_display.md R242, D20; log 18). -/
def drawRow (b : Byte) (cx : Nat) (r : Fin 32) : List Nat → FrameBuffer × Bool → FrameBuffer × Bool
  | [], p => p
  | col :: cols, p =>
    drawRow b cx r cols (if b.getLsbD (7 - col) then xorPixel p (wrapCol (cx + col)) r else p)

/-- The sprite's rows from row offset `row` on (43_display.md R242). -/
def drawRows (cx cy : Nat) : Nat → List Byte → FrameBuffer × Bool → FrameBuffer × Bool
  | _, [], p => p
  | row, b :: bs, p =>
    drawRows cx cy (row + 1) bs (drawRow b cx (wrapRow (cy + row)) [0, 1, 2, 3, 4, 5, 6, 7] p)

/-- `draw_byte()`: a fresh free byte, and the state that has taken it (41_alu.md R183; log 3). -/
def drawByte (s : State) : Byte × State :=
  (Config.freeByte s.draws, { s with draws := s.draws + 1 })

end Sys2Proof.Machine
end

