-- ==== Sys2Proof/Machine/Flags.lean ====
section
/-! DEFINITION. Every flag computation of the spec, and the flag writeback (41_alu.md R170, R184). -/

namespace Sys2Proof.Machine

/-- A flag as a byte, 0x00 or 0x01 (00_scope.md section 4). -/
def flagByte (f : Bool) : Byte := if f then 0x01#8 else 0x00#8

/-- The carry of 8xy4 (41_alu.md R177). -/
def carryFlag (a b : Byte) : Bool := decide (a.toNat + b.toNat > 255)

/-- The "no borrow" of `a - b`, strict (41_alu.md R178, R180). -/
def noBorrowFlag (a b : Byte) : Bool := decide (a.toNat > b.toNat)

/-- The bit a right shift moves out (41_alu.md R179). -/
def shiftRightFlag (a : Byte) : Bool := a.getLsbD 0

/-- The bit a left shift moves out (41_alu.md R181). -/
def shiftLeftFlag (a : Byte) : Bool := a.getLsbD 7

/-- Flag writeback (41_alu.md R170): result then flag, or flag then result, as `VF_LAST` says. -/
def commitFlag (x : Nibble) (res : Byte) (f : Bool) (s : State) : State :=
  if s.cfg.vfLast then (s.setReg x res).setReg vF (flagByte f)
  else (s.setReg vF (flagByte f)).setReg x res

end Sys2Proof.Machine
end

