-- ==== Sys2Proof/Machine/Operands.lean ====
section
/-! DEFINITION. The operand forms the instruction rules share. -/

namespace Sys2Proof.Machine

/-- The register the shifts read: `V[x]`, or `V[y]` when `SHIFT_SOURCE = Y` (41_alu.md R179, R181). -/
def shiftOperand (x y : Nibble) (s : State) : Byte :=
  match s.cfg.shiftSource with
  | .x => s.reg x
  | .y => s.reg y

/-- What 5xy0 compares `V[x]` with: itself, or `V[y]` when `SE_VV_MODE = FIXED` (40_control.md R137). -/
def seOperand (x y : Nibble) (s : State) : Byte :=
  match s.cfg.seVvMode with
  | .self => s.reg x
  | .fixed => s.reg y

/-- `I` as an exact address (20_memory.md R63). -/
def indexAddr (s : State) : Nat := s.i.toNat

/-- The last address `I + x` of Fx55 and Fx65 (42_index_memory.md R214, R215). -/
def indexLast (x : Nibble) (s : State) : Nat := s.i.toNat + x.toNat

/-- The bytes `V[0]` to `V[x]` (42_index_memory.md R214). -/
def regsUpTo (x : Nibble) (s : State) : List Byte := s.v.toList.take (x.toNat + 1)

/-- `I <- I +_16 (x + 1)` when `LDST_I_INCR` (42_index_memory.md R214, R215). -/
def stepIndex (x : Nibble) (s : State) : State :=
  if s.cfg.ldstIIncr then s.setI (s.i + BitVec.ofNat 16 (x.toNat + 1)) else s

/-- Hundreds, tens and ones of a byte (42_index_memory.md R213). -/
def bcdDigits (v : Byte) : List Byte :=
  [BitVec.ofNat 8 (v.toNat / 100), BitVec.ofNat 8 (v.toNat / 10 % 10), BitVec.ofNat 8 (v.toNat % 10)]

/-- `FONT_BASE + 5 * v` (42_index_memory.md R212). -/
def glyphAddr (v : Byte) : Word := BitVec.ofNat 16 (5 * v.toNat)

/-- `key_index(V[x])` before the rest of the instruction (44_keys_timers.md R260). -/
def keyIndexed (x : Nibble) (s : State) (k : Nibble → Result) : Result :=
  if (s.reg x).toNat > 15 then raise .keyRange (zext16 (s.reg x)) s
  else k ((s.reg x).setWidth 4)

end Sys2Proof.Machine
end

