-- ==== Sys2Proof/Machine/Alu.lean ====
section
/-! DEFINITION. The register-file ALU (41_alu.md). No instruction here can fault. -/

namespace Sys2Proof.Machine

/-- LD Vx, kk (41_alu.md R171). -/
def execLdImm (x : Nibble) (kk : Byte) (s : State) : Result := .next (s.setReg x kk)

/-- ADD Vx, kk (41_alu.md R172): wraps, writes no flag. -/
def execAddImm (x : Nibble) (kk : Byte) (s : State) : Result :=
  .next (s.setReg x (s.reg x + kk))

/-- LD Vx, Vy (41_alu.md R173). -/
def execLdReg (x y : Nibble) (s : State) : Result := .next (s.setReg x (s.reg y))

/-- OR Vx, Vy (41_alu.md R174). -/
def execOrReg (x y : Nibble) (s : State) : Result := .next (s.setReg x (s.reg x ||| s.reg y))

/-- AND Vx, Vy (41_alu.md R175). -/
def execAndReg (x y : Nibble) (s : State) : Result := .next (s.setReg x (s.reg x &&& s.reg y))

/-- XOR Vx, Vy (41_alu.md R176). -/
def execXorReg (x y : Nibble) (s : State) : Result := .next (s.setReg x (s.reg x ^^^ s.reg y))

/-- ADD Vx, Vy (41_alu.md R177). -/
def execAddReg (x y : Nibble) (s : State) : Result :=
  .next (commitFlag x (s.reg x + s.reg y) (carryFlag (s.reg x) (s.reg y)) s)

/-- SUB Vx, Vy (41_alu.md R178). -/
def execSubReg (x y : Nibble) (s : State) : Result :=
  .next (commitFlag x (s.reg x - s.reg y) (noBorrowFlag (s.reg x) (s.reg y)) s)

/-- SHR Vx {, Vy} (41_alu.md R179). -/
def execShr (x y : Nibble) (s : State) : Result :=
  .next (commitFlag x (shiftOperand x y s >>> 1) (shiftRightFlag (shiftOperand x y s)) s)

/-- SUBN Vx, Vy (41_alu.md R180). -/
def execSubnReg (x y : Nibble) (s : State) : Result :=
  .next (commitFlag x (s.reg y - s.reg x) (noBorrowFlag (s.reg y) (s.reg x)) s)

/-- SHL Vx {, Vy} (41_alu.md R181). -/
def execShl (x y : Nibble) (s : State) : Result :=
  .next (commitFlag x (shiftOperand x y s <<< 1) (shiftLeftFlag (shiftOperand x y s)) s)

/-- RND Vx, kk (41_alu.md R182): the cycle's free draw AND the mask. -/
def execRnd (x : Nibble) (kk : Byte) (s : State) : Result :=
  .next ((drawByte s).2.setReg x ((drawByte s).1 &&& kk))

end Sys2Proof.Machine
end

