-- ==== Sys2Proof/Machine/Control.lean ====
section
/-! DEFINITION. Control transfer, skips and the no-effect operation (40_control.md). In every meaning
`s.pc` is the advanced `PC0 + 2`. -/

namespace Sys2Proof.Machine

/-- NOP, family 0x0 (40_control.md R130). -/
def execNop0 (s : State) : Result := .next s

/-- NOP, family 0x8 (40_control.md R130). -/
def execNop8 (s : State) : Result := .next s

/-- NOP, family 0xE (40_control.md R130). -/
def execNopE (s : State) : Result := .next s

/-- NOP, family 0xF (40_control.md R130). -/
def execNopF (s : State) : Result := .next s

/-- RET (40_control.md R131). -/
def execRet (s : State) : Result := pop s fun p t => .next (t.setPc p)

/-- JP nnn (40_control.md R132). -/
def execJp (nnn : Addr12) (s : State) : Result := .next (s.setPc (zext16 nnn))

/-- CALL nnn (40_control.md R133). -/
def execCall (nnn : Addr12) (s : State) : Result :=
  push s.pc s fun t => .next (t.setPc (zext16 nnn))

/-- SE Vx, kk (40_control.md R135). -/
def execSeImm (x : Nibble) (kk : Byte) (s : State) : Result := .next (skipIf (s.reg x == kk) s)

/-- SNE Vx, kk (40_control.md R136). -/
def execSneImm (x : Nibble) (kk : Byte) (s : State) : Result := .next (skipIf (s.reg x != kk) s)

/-- SE Vx, Vy (40_control.md R137). -/
def execSeReg (x y : Nibble) (s : State) : Result :=
  .next (skipIf (s.reg x == seOperand x y s) s)

/-- SNE Vx, Vy (40_control.md R138). -/
def execSneReg (x y : Nibble) (s : State) : Result := .next (skipIf (s.reg x != s.reg y) s)

/-- JP V0, nnn (40_control.md R139). -/
def execJpV0 (nnn : Addr12) (s : State) : Result :=
  .next (s.setPc (zext16 (s.reg 0x0#4) + zext16 nnn))

end Sys2Proof.Machine
end

