-- ==== Sys2Proof/Machine/Display.lean ====
section
/-! DEFINITION. The sprite-XOR pixel engine (43_display.md). -/

namespace Sys2Proof.Machine

/-- CLS (43_display.md R241). -/
def execCls (s : State) : Result := .next { s with fb := clearScreen }

/-- The framebuffer and the collision flag after drawing the `n` sprite bytes at `I` with origin
`(V[x], V[y])` (43_display.md R242). -/
def spriteDrawn (x y n : Nibble) (s : State) : FrameBuffer × Bool :=
  drawRows (s.reg x).toNat (s.reg y).toNat 0 (s.bytesAt (indexAddr s) n.toNat) (s.fb, false)

/-- DRW Vx, Vy, n (43_display.md R242): VF is the last write; no check when `n = 0`. -/
def execDrw (x y n : Nibble) (s : State) : Result :=
  let drawn : Result :=
    .next ({ s with fb := (spriteDrawn x y n s).1 }.setReg vF (flagByte (spriteDrawn x y n s).2))
  if n.toNat = 0 then drawn
  else checked (indexAddr s) (indexAddr s + n.toNat - 1) s drawn

end Sys2Proof.Machine
end

