-- ==== Sys2Proof/Machine/IndexMemory.lean ====
section
/-! DEFINITION. The index register and the memory operations (42_index_memory.md). Every bounds check
runs before any write (20_memory.md R63). -/

namespace Sys2Proof.Machine

/-- LD I, nnn (42_index_memory.md R210). -/
def execLdI (nnn : Addr12) (s : State) : Result := .next (s.setI (zext16 nnn))

/-- ADD I, Vx (42_index_memory.md R211): wraps at 16 bits, writes no flag. -/
def execAddI (x : Nibble) (s : State) : Result := .next (s.setI (s.i + zext16 (s.reg x)))

/-- LD F, Vx (42_index_memory.md R212; log 17 for a value above 15). -/
def execLdF (x : Nibble) (s : State) : Result := .next (s.setI (glyphAddr (s.reg x)))

/-- LD B, Vx (42_index_memory.md R213). -/
def execLdB (x : Nibble) (s : State) : Result :=
  checked (indexAddr s) (indexAddr s + 2) s
    (.next (s.storeBytes (indexAddr s) (bcdDigits (s.reg x))))

/-- LD [I], Vx (42_index_memory.md R214). -/
def execLdMemVx (x : Nibble) (s : State) : Result :=
  checked (indexAddr s) (indexLast x s) s
    (.next (stepIndex x (s.storeBytes (indexAddr s) (regsUpTo x s))))

/-- LD Vx, [I] (42_index_memory.md R215). -/
def execLdVxMem (x : Nibble) (s : State) : Result :=
  checked (indexAddr s) (indexLast x s) s
    (.next (stepIndex x (loadRegs s 0 (s.bytesAt (indexAddr s) (x.toNat + 1)))))

end Sys2Proof.Machine
end

