-- ==== Sys2Proof/Machine/KeysTimers.lean ====
section
/-! DEFINITION. Keypad and timer instructions (44_keys_timers.md). -/

namespace Sys2Proof.Machine

/-- SKP Vx (44_keys_timers.md R261). -/
def execSkp (x : Nibble) (s : State) : Result :=
  keyIndexed x s fun k => .next (skipIf (s.pressed k) s)

/-- SKNP Vx (44_keys_timers.md R262). -/
def execSknp (x : Nibble) (s : State) : Result :=
  keyIndexed x s fun k => .next (skipIf (!s.pressed k) s)

/-- LD Vx, DT (44_keys_timers.md R263). -/
def execLdVxDt (x : Nibble) (s : State) : Result := .next (s.setReg x s.dt)

/-- LD DT, Vx (44_keys_timers.md R264). -/
def execLdDtVx (x : Nibble) (s : State) : Result := .next { s with dt := s.reg x }

/-- LD ST, Vx (44_keys_timers.md R265). -/
def execLdStVx (x : Nibble) (s : State) : Result := .next { s with st := s.reg x }

/-- LD Vx, K (44_keys_timers.md R266): report the least pressed key, or go back to `PC0` and wait
(log 18 for level and choice of key). -/
def execLdVxK (x : Nibble) (s : State) : Result :=
  match s.leastPressed with
  | some k =>
    .next (if s.cfg.fx0aClearKey then (s.setReg x (k.setWidth 8)).releaseKey k
      else s.setReg x (k.setWidth 8))
  | none => .next (s.setPc (s.pc - 2))

end Sys2Proof.Machine
end

