-- ==== Sys2Proof/Machine/Cycle.lean ====
section
/-! DEFINITION. The cycle: fetch, advance, decode, execute, writeback (30_encoding.md R110 to R118),
and where a program's next instruction is placed. -/

namespace Sys2Proof.Machine

/-- The big-endian word at an address (20_memory.md R61). -/
def State.wordAt (s : State) (a : Nat) : Word := wordOfBytes (s.byteAt a) (s.byteAt (a + 1))

/-- Fetch: none when `PC > 0xFFE` (30_encoding.md R111). -/
def fetch (s : State) : Option Word :=
  if s.pc.toNat > 0xFFE then none else some (s.wordAt s.pc.toNat)

/-- `IR <- w` and the advance `PC <- PC +_16 2`, before execute (30_encoding.md R111, R112). -/
def advance (w : Word) (s : State) : State := { s with pc := s.pc + 2, ir := w }

/-- The end of a cycle that began in `s0`: all writes, or, after a fault, none of them and the FAULT
record (30_encoding.md R110, 60_exceptions.md R281; log 5). -/
def commit (s0 : State) : Result → Result
  | .next t =>
    match t.fault with
    | .run => .next t
    | .faulted r => .next { s0 with fault := .faulted r }
  | .fault f => .fault f
  | .refused r => .refused r

/-- `step_cycle` (30_encoding.md R110): nothing when FAULTED (R118), else one instruction. -/
def cycle (s : State) : Result :=
  match s.fault with
  | .faulted _ => .next s
  | .run =>
    match fetch s with
    | none => .next (takeFault .fetchBounds s.pc none (firstOutside s.pc.toNat) s)
    | some w => commit s (exec (decodeWord w) (advance w s))

/-- The three results a cycle reports to the host (30_encoding.md R116). -/
inductive CycleResult where
  | executed
  | waitingKey
  | faulted
  deriving DecidableEq, Repr

/-- Whether an instruction waits in this state: Fx0A with no key pressed (44_keys_timers.md R266). -/
def waits (i : Instr) (s : State) : Bool :=
  match i with
  | .ldVxK _ => s.leastPressed.isNone
  | _ => false

/-- What the cycle that begins in `s` reports (30_encoding.md R116; log 12). -/
def cycleResult (s : State) : CycleResult :=
  match cycle s with
  | .next t =>
    match t.fault, fetch s with
    | .faulted _, _ => .faulted
    | .run, some w => if waits (decodeWord w) s then .waitingKey else .executed
    | .run, none => .executed
  | .fault _ => .faulted
  | .refused _ => .faulted

/-- A state whose next cycle fetches: the core runs and `PC` is not above 0xFFE (log 11). -/
def runnable (s : State) : State :=
  { s with fault := .run, pc := if s.pc.toNat > 0xFFE then 0x0200#16 else s.pc }

/-- Store a word, big-endian, where the next cycle fetches (20_memory.md R61; log 11). -/
def placeWord (w : Word) (s : State) : State :=
  (runnable s).storeBytes (runnable s).pc.toNat [hiByte w, loByte w]

end Sys2Proof.Machine
end

