-- ==== Sys2Proof/Machine/Ports.lean ====
section
/-! DEFINITION. The host's transactions (60_exceptions.md R294). Each is atomic and none overlaps a
cycle (20_memory.md R70; log 13). -/

namespace Sys2Proof.Machine

/-- construct (70_reset_and_hazards.md R320): a new state under the same parameters. The process-wide
random source goes on (10_state.md R37; log 14). -/
def construct (s : State) : State := { State.constructed s.cfg with draws := s.draws }

/-- What `load` reports (70_reset_and_hazards.md R322). -/
inductive LoadResult where
  | success
  | failure
  deriving DecidableEq, Repr

/-- `load(bytes)` (70_reset_and_hazards.md R322, R323): all of the image or nothing. -/
def load (image : List Byte) (s : State) : State × LoadResult :=
  if image.length > 3584 then (s, .failure) else (s.storeBytes 0x200 image, .success)

/-- `load` of a source, none when it cannot be read: `failure`, nothing changes (R322). -/
def loadSource (source : Option (List Byte)) (s : State) : State × LoadResult :=
  match source with
  | none => (s, .failure)
  | some image => load image s

/-- A timer's tick, clamped at 0 (60_exceptions.md R287). -/
def tickByte (t : Byte) : Byte := if t.toNat > 0 then t - 1 else t

/-- `tick_timers()` (60_exceptions.md R287): both timers at once, faulted or not (R284). -/
def tickTimers (s : State) : State := { s with dt := tickByte s.dt, st := tickByte s.st }

/-- write keypad (60_exceptions.md R291). -/
def writeKeypad (keys : Vector Bool 16) (s : State) : State := { s with key := keys }

/-- read framebuffer, row-major: element `r*64 + c` is `FB[c][r]` (60_exceptions.md R292). -/
def readFramebuffer (s : State) : List Bool := (s.fb.toList.map Vector.toList).flatten

/-- read sound timer (60_exceptions.md R290). -/
def readSoundTimer (s : State) : Byte := s.st

/-- The fault codes (60_exceptions.md R280). -/
def FaultCause.code : FaultCause → Nat
  | .fetchBounds => 1
  | .dataBounds => 2
  | .stackOverflow => 3
  | .stackUnderflow => 4
  | .keyRange => 5

/-- `FAULT.cause`: a code, 0 while RUN (10_state.md R38). -/
def FaultStatus.code : FaultStatus → Nat
  | .run => 0
  | .faulted r => r.cause.code

/-- read fault status (60_exceptions.md R294). -/
def readFault (s : State) : FaultStatus := s.fault

/-- The transactions of 60_exceptions.md R294. -/
inductive Transaction where
  | construct
  | load (source : Option (List Byte))
  | stepCycle
  | tickTimers
  | writeKeypad (keys : Vector Bool 16)
  | readFramebuffer
  | readSoundTimer
  | readFault
  deriving DecidableEq, Repr

/-- What a transaction returns to the host (60_exceptions.md R294). -/
inductive Reply where
  | none
  | loaded (r : LoadResult)
  | ran (r : CycleResult)
  | pixels (p : List Bool)
  | sound (t : Byte)
  | status (f : FaultStatus)
  deriving DecidableEq, Repr

/-- The effect of a transaction (60_exceptions.md R294). -/
def transact (t : Transaction) (s : State) : Result :=
  match t with
  | .construct => .next (construct s)
  | .load source => .next (loadSource source s).1
  | .stepCycle => step s
  | .tickTimers => .next (tickTimers s)
  | .writeKeypad keys => .next (writeKeypad keys s)
  | .readFramebuffer => .next s
  | .readSoundTimer => .next s
  | .readFault => .next s

/-- What a transaction returns (60_exceptions.md R294). -/
def reply (t : Transaction) (s : State) : Reply :=
  match t with
  | .construct => .none
  | .load source => .loaded (loadSource source s).2
  | .stepCycle => .ran (cycleResult s)
  | .tickTimers => .none
  | .writeKeypad _ => .none
  | .readFramebuffer => .pixels (readFramebuffer s)
  | .readSoundTimer => .sound (readSoundTimer s)
  | .readFault => .status (readFault s)

end Sys2Proof.Machine
end

