-- ==== Sys2Proof/Safety.lean ====
section
/-! DEFINITION. What the claims call a sound state and the end of a run. -/

namespace Sys2Proof.Machine

/-- What FAULT holds about a faulted core, cause by cause (60_exceptions.md R280, R281; 10_state.md
R38): the core still stands at the faulting instruction. -/
def FaultRecord.sound (r : FaultRecord) (s : State) : Prop :=
  r.fpc = s.pc ∧
  match r.cause with
  | .fetchBounds => r.fword = none ∧ s.pc.toNat > 0xFFE ∧ r.finfo.toNat = max s.pc.toNat 0x1000
  | .dataBounds =>
      (∃ w, r.fword = some w) ∧ s.pc.toNat ≤ 0xFFE ∧ r.finfo.toNat = max s.i.toNat 0x1000
  | .stackOverflow =>
      (∃ w, r.fword = some w) ∧ s.pc.toNat ≤ 0xFFE ∧ r.finfo.toNat = 16 ∧ s.sp.val = 16
  | .stackUnderflow =>
      (∃ w, r.fword = some w) ∧ s.pc.toNat ≤ 0xFFE ∧ r.finfo.toNat = 0 ∧ s.sp.val = 0
  | .keyRange =>
      (∃ w, r.fword = some w) ∧ s.pc.toNat ≤ 0xFFE ∧ 15 < r.finfo.toNat ∧ r.finfo.toNat < 256

/-- The invariant of the machine: memory is in canonical form; `PC` and every stack slot stay within
the bounds of 10_state.md R26; a FAULT record is sound. That SP ≤ 16, that keys and pixels are 0 or 1
and the widths of the registers (10_state.md R41) are the types of the fields. -/
structure Inv (s : State) : Prop where
  memory : s.mem.wf s.cfg
  pcBound : s.pc.toNat ≤ 0x10FE
  stackBound : ∀ j : Fin 16, (s.stack[j]).toNat ≤ 0x1000
  faultSound : ∀ r, s.fault = .faulted r → r.sound s

/-- The end of a run at a named address (70_reset_and_hazards.md R333): never a faulted state. -/
def AtEnd (a : Word) (s : State) : Prop := s.pc = a ∧ s.fault = .run

end Sys2Proof.Machine
end

