-- ==== Sys2Proof/Certificates/Slice0/Obligations.lean ====
section
/-! DEFINITION. The statements for the provers, and the few predicates they share. In a statement
about `exec`, the state is the one execute reads: `PC` already holds `PC0 + 2` and `IR` the word
(30_encoding.md R114). Log entries are notes/assumptions/<n>.md; D<n> is a decision the spec makes for
itself (92_eei_decisions.md). -/

namespace Sys2Proof.Claims

open Sys2Proof.Machine

/-- Every byte of memory reads as before. -/
def SameBytes (s t : State) : Prop := ∀ a, t.byteAt a = s.byteAt a

/-- Nothing changes but general registers, and of these only the ones in `W`. -/
def OnlyRegs (W : Nibble → Prop) (s t : State) : Prop :=
  t = { s with v := t.v } ∧ SameBytes s t ∧ ∀ j, ¬ W j → t.reg j = s.reg j

/-- Nothing changes but `PC`. -/
def OnlyPc (s t : State) : Prop :=
  t = { s with pc := t.pc } ∧ SameBytes s t ∧ ∀ j, t.reg j = s.reg j

/-- Nothing changes but `I`. -/
def OnlyIndex (s t : State) : Prop :=
  t = { s with i := t.i } ∧ SameBytes s t ∧ ∀ j, t.reg j = s.reg j

/-- The skip of 40_control.md R134 under a condition, and nothing else. -/
def Skips (i : Instr) (s : State) (c : Prop) : Prop :=
  ∃ t, exec i s = .next t ∧ OnlyPc s t ∧ (c → t.pc = s.pc + 2) ∧ (¬ c → t.pc = s.pc)

/-- A result in Vx and a flag in VF, written as `VF_LAST` says (41_alu.md R170), and nothing else. -/
def ResultAndFlag (i : Instr) (s : State) (x : Nibble) (res flag : Nat) : Prop :=
  ∃ t, exec i s = .next t ∧ OnlyRegs (fun j => j = x ∨ j = 0xF#4) s t ∧
    (x ≠ 0xF#4 → (t.reg x).toNat = res ∧ (t.reg 0xF#4).toNat = flag) ∧
    (x = 0xF#4 → (t.reg 0xF#4).toNat = if s.cfg.vfLast then flag else res)

/-- A fault raised in execute: `PC` back at the instruction, the FAULT record, and nothing else
(60_exceptions.md R281; that it is a next state is the model's choice, log 4). -/
def Raises (i : Instr) (s : State) (c : FaultCause) (info : Nat) : Prop :=
  exec i s = .next { s with
    pc := s.pc - 2
    fault := .faulted ⟨c, s.pc - 2, some s.ir, BitVec.ofNat 16 info⟩ }

/-- The words R95 to R98 of 30_encoding.md leave unassigned (40_control.md R130). -/
def Unassigned (w : Nat) : Prop :=
  (w / 4096 = 0x0 ∧ w % 16 ∉ [0x0, 0xE]) ∨
  (w / 4096 = 0x8 ∧ w % 16 ∈ [0x8, 0x9, 0xA, 0xB, 0xC, 0xD, 0xF]) ∨
  (w / 4096 = 0xE ∧ w % 16 ∉ [0x1, 0xE]) ∨
  (w / 4096 = 0xF ∧ w % 256 ∉ [0x07, 0x0A, 0x15, 0x18, 0x1E, 0x29, 0x33, 0x55, 0x65])

/-- A set sprite bit of `DRW Vx, Vy, n` lands on pixel `(c, r)` (43_display.md R240, R242). -/
def SpriteHits (s : State) (x y n : Nibble) (c : Fin 64) (r : Fin 32) : Prop :=
  ∃ row col : Nat, row < n.toNat ∧ col < 8 ∧
    (s.byteAt (s.i.toNat + row)).getLsbD (7 - col) = true ∧
    c.val = ((s.reg x).toNat + col) % 64 ∧ r.val = ((s.reg y).toNat + row) % 32

/-- The sprite of `DRW Vx, Vy, n` lies inside memory (43_display.md R242). -/
def SpriteInside (s : State) (n : Nibble) : Prop := n.toNat = 0 ∨ s.i.toNat + n.toNat - 1 ≤ 0xFFF

/-- The byte `b` that LD [I], Vx, run in `s`, leaves at address `a` (42_index_memory.md R214). -/
def RegStored (s : State) (x : Nibble) (a : Nat) (b : Byte) : Prop :=
  (∀ j : Nibble, j.toNat ≤ x.toNat → a = s.i.toNat + j.toNat → b = s.reg j) ∧
  ((a < s.i.toNat ∨ s.i.toNat + x.toNat < a) → b = s.byteAt a)

/-- The byte `b` that LD B, Vx, run in `s`, leaves at address `a` (42_index_memory.md R213). -/
def DigitStored (s : State) (x : Nibble) (a : Nat) (b : Byte) : Prop :=
  (a = s.i.toNat → b.toNat = (s.reg x).toNat / 100) ∧
  (a = s.i.toNat + 1 → b.toNat = (s.reg x).toNat / 10 % 10) ∧
  (a = s.i.toNat + 2 → b.toNat = (s.reg x).toNat % 10) ∧
  ((a < s.i.toNat ∨ s.i.toNat + 2 < a) → b = s.byteAt a)

/-- The general registers an instruction may write (10_state.md R22). -/
def WritesReg (i : Instr) (j : Nibble) : Prop :=
  match i with
  | .ldImm x _ | .addImm x _ | .ldReg x _ | .orReg x _ | .andReg x _ | .xorReg x _ | .rnd x _
  | .ldVxDt x | .ldVxK x => j = x
  | .addReg x _ | .subReg x _ | .shr x _ | .subnReg x _ | .shl x _ => j = x ∨ j = 0xF#4
  | .drw _ _ _ => j = 0xF#4
  | .ldVxMem x => j.toNat ≤ x.toNat
  | .cls | .ret | .jp _ | .call _ | .seImm _ _ | .sneImm _ _ | .seReg _ _ | .sneReg _ _ | .ldI _
  | .jpV0 _ | .skp _ | .sknp _ | .ldDtVx _ | .ldStVx _ | .addI _ | .ldF _ | .ldB _ | .ldMemVx _
  | .nop0 _ | .nop8 _ | .nopE _ | .nopF _ => False

/-- How an instruction that completes may leave `PC`, from the address `p` it was fetched at
(10_state.md R25): `p + 2`, or for a skip `p + 4`; the absolute transfers and a waiting Fx0A have
statements of their own. -/
def PcAfter (i : Instr) (p q : Word) : Prop :=
  match i with
  | .jp _ | .call _ | .ret | .jpV0 _ | .ldVxK _ => True
  | .seImm _ _ | .sneImm _ _ | .seReg _ _ | .sneReg _ _ | .skp _ | .sknp _ => q = p + 2 ∨ q = p + 4
  | .cls | .ldImm _ _ | .addImm _ _ | .ldReg _ _ | .orReg _ _ | .andReg _ _ | .xorReg _ _
  | .addReg _ _ | .subReg _ _ | .shr _ _ | .subnReg _ _ | .shl _ _ | .ldI _ | .rnd _ _
  | .drw _ _ _ | .ldVxDt _ | .ldDtVx _ | .ldStVx _ | .addI _ | .ldF _ | .ldB _ | .ldMemVx _
  | .ldVxMem _ | .nop0 _ | .nop8 _ | .nopE _ | .nopF _ => q = p + 2

end Sys2Proof.Claims

open Sys2Proof Sys2Proof.Machine Sys2Proof.Claims

/-! ### Encoding -/

/-- Decoding the bytes of a well-formed instruction gives it back, whatever bytes follow. Derived from
30_encoding.md R91 to R101 (the assignments are the spec's D22, D23). -/
def Obligations.DecodeOfEncodeIsIdentity : Prop :=
  ∀ (i : Instr) (rest : List Byte), i.WellFormed →
    decodeBytes (encodeBytes i ++ rest) = .ok (i, rest)

/-- Every word decodes to a well-formed instruction, whose word agrees with it on every bit but those
30_encoding.md R95, R97 and R99 say are not examined (log 8). -/
def Obligations.EncodeOfDecodeKeepsExaminedBits : Prop :=
  ∀ w : Word, (decodeWord w).WellFormed ∧
    encode (decodeWord w) &&& (decodeWord w).keptBits = w &&& (decodeWord w).keptBits

/-- The decoder is the opcode map of 30_encoding.md R101: a word decodes to a named row exactly when
it has that row's bits, and to a family default exactly when it is of the family and no named row has
its bits. -/
def Obligations.DecoderFollowsOpcodeMap : Prop :=
  (∀ (w : Word) (k : Nat) (r : OpcodeRow), namedRows[k]? = some r →
    (r.fits w = true ↔ (decodeWord w).row = k)) ∧
  (∀ (w : Word) (k : Nat) (r : OpcodeRow), familyRows[k]? = some r →
    ((decodeWord w).row = 34 + k ↔ r.fits w = true ∧ ∀ q ∈ namedRows, q.fits w = false))

/-- Words of 95_test_vectors.md (E6, E8, E9, 2.1) decode to the instructions it names. -/
def Obligations.SpecWordsDecode : Prop :=
  decodeWord 0x1228 = .jp 0x228 ∧ decodeWord 0x6005 = .ldImm 0 0x05 ∧
  decodeWord 0x700A = .addImm 0 0x0A ∧ decodeWord 0x0120 = .cls ∧ decodeWord 0x012E = .ret ∧
  decodeWord 0x5121 = .seReg 1 2 ∧ decodeWord 0x9125 = .sneReg 1 2 ∧ decodeWord 0xE10E = .skp 1 ∧
  decodeWord 0x8124 = .addReg 1 2 ∧ decodeWord 0xFA33 = .ldB 0xA ∧ decodeWord 0xD015 = .drw 0 1 5 ∧
  decodeWord 0x8008 = .nop8 0x008 ∧ decodeWord 0xF0FF = .nopF 0x0FF

/-! ### The cycle and its faults -/

/-- A step of a running core runs the instruction its two bytes decode to, on the state with `PC`
advanced and `IR` written, and commits all of it, or after a fault only the FAULT record. Derived from
30_encoding.md R110 to R115 (the rollback is the spec's D6). -/
def Obligations.StepRunsDecodedInstruction : Prop :=
  ∀ (s : State) (i : Instr), s.fault = .run → s.pc.toNat ≤ 0xFFE →
    decodeBytes [s.byteAt s.pc.toNat, s.byteAt (s.pc.toNat + 1)] = .ok (i, []) →
    ∃ t, exec i { s with
        pc := s.pc + 2
        ir := wordOfBytes (s.byteAt s.pc.toNat) (s.byteAt (s.pc.toNat + 1)) } = .next t ∧
      (t.fault = .run → step s = .next t) ∧
      ∀ r, t.fault = .faulted r → step s = .next { s with fault := .faulted r }

/-- A fetch with `PC > 0xFFE` raises FETCH_BOUNDS and changes nothing but FAULT. Rests on the spec's
decisions D3 and D6. -/
def Obligations.FetchOutOfBoundsFaults : Prop :=
  ∀ s : State, s.fault = .run → s.pc.toNat > 0xFFE →
    step s = .next { s with
      fault := .faulted ⟨.fetchBounds, s.pc, none, BitVec.ofNat 16 (max s.pc.toNat 0x1000)⟩ }

/-- A faulted core executes nothing: its cycle changes nothing and reports FAULTED; ticks, key writes
and loads go on and do not clear the fault; construction does. Rests on the spec's decision D6. -/
def Obligations.FaultedCoreStaysFaulted : Prop :=
  ∀ (s : State) (r : FaultRecord), s.fault = .faulted r →
    step s = .next s ∧ cycleResult s = .faulted ∧
    (tickTimers s).fault = .faulted r ∧
    (∀ keys, (writeKeypad keys s).fault = .faulted r) ∧
    (∀ source, (loadSource source s).1.fault = .faulted r) ∧
    (construct s).fault = .run

/-- Every instruction on every state, and every step, answers a next state: nothing stops the model.
That a form that faults answers a next state, the one with FAULT set, is the model's choice (log 4). -/
def Obligations.EveryInstructionAnswersNext : Prop :=
  (∀ (i : Instr) (s : State), ∃ t, exec i s = .next t) ∧ ∀ s : State, ∃ t, step s = .next t

/-- A cycle that faults commits nothing: the state is the one it began in, with FAULT recording the
instruction's address and word. Rests on the spec's decision D6. -/
def Obligations.FaultedCycleCommitsNothing : Prop :=
  ∀ (s t : State) (r : FaultRecord), s.fault = .run → step s = .next t → t.fault = .faulted r →
    t = { s with fault := .faulted r } ∧ r.fpc = s.pc ∧
    r.fword = if s.pc.toNat ≤ 0xFFE then some (s.wordAt s.pc.toNat) else none

/-- Which instruction raises which fault, when, and with what info; no other instruction and no other
condition faults. Rests on the spec's decisions D3 to D6 and D12. -/
def Obligations.FaultCausesAreListed : Prop :=
  ∀ (i : Instr) (s t : State) (r : FaultRecord), s.fault = .run → exec i s = .next t →
    t.fault = .faulted r →
    (r.cause = .dataBounds ∧ r.finfo.toNat = max s.i.toNat 0x1000 ∧
      ((∃ x y n, i = .drw x y n ∧ 0 < n.toNat ∧ s.i.toNat + n.toNat - 1 > 0xFFF) ∨
       (∃ x, i = .ldB x ∧ s.i.toNat + 2 > 0xFFF) ∨
       (∃ x, i = .ldMemVx x ∧ s.i.toNat + x.toNat > 0xFFF) ∨
       (∃ x, i = .ldVxMem x ∧ s.i.toNat + x.toNat > 0xFFF))) ∨
    (r.cause = .stackOverflow ∧ r.finfo.toNat = 16 ∧ s.sp.val = 16 ∧ ∃ nnn, i = .call nnn) ∨
    (r.cause = .stackUnderflow ∧ r.finfo.toNat = 0 ∧ s.sp.val = 0 ∧ i = .ret) ∨
    (r.cause = .keyRange ∧
      ∃ x, (i = .skp x ∨ i = .sknp x) ∧ (s.reg x).toNat > 15 ∧ r.finfo.toNat = (s.reg x).toNat)

/-- What a cycle reports: FAULTED exactly when the core is faulted after it, WAITING_KEY exactly when
a running core fetches Fx0A and no key is pressed, and then only `IR` has changed. Rests on the spec's
decisions D6 and D11; the report is a function, log 12. -/
def Obligations.CycleReport : Prop :=
  ∀ s t : State, step s = .next t →
    (cycleResult s = .faulted ↔ ∃ r, t.fault = .faulted r) ∧
    (cycleResult s = .waitingKey ↔ s.fault = .run ∧ s.pc.toNat ≤ 0xFFE ∧
      (∃ x, decodeWord (s.wordAt s.pc.toNat) = .ldVxK x) ∧ ∀ k : Fin 16, s.key[k] = false) ∧
    (cycleResult s = .waitingKey → t = { s with ir := s.wordAt s.pc.toNat })

/-- A cycle that completes leaves the fetched word in `IR`. -/
def Obligations.CompletedCycleWritesIr : Prop :=
  ∀ s t : State, s.fault = .run → step s = .next t → t.fault = .run →
    t.ir = wordOfBytes (s.byteAt s.pc.toNat) (s.byteAt (s.pc.toNat + 1))

/-- How a completed cycle leaves `PC`: every instruction that is no transfer, skip or wait advances it
by 2, a skip by 2 or 4. Derived from 10_state.md R25, which is marked derived. -/
def Obligations.PcAdvancesByTwoOrFour : Prop :=
  ∀ s t : State, s.fault = .run → step s = .next t → t.fault = .run →
    PcAfter (decodeWord (s.wordAt s.pc.toNat)) s.pc t.pc

/-! ### Reset and invariants -/

/-- The state after construction under any parameters, and the defaults at reset, the 80 bytes of
10_state.md R28 among them. The values other than `PC`, V and the font's place are the spec's decisions
D6, D14 and D16, the defaults D7 to D11, D14 and D15 (log 2, log 10). -/
def Obligations.ResetState : Prop :=
  (∀ c : Config, let s := State.constructed c
    (∀ j, s.reg j = 0) ∧ s.pc = 0x200 ∧ s.i = 0 ∧ s.sp = 0 ∧ s.dt = 0 ∧ s.st = 0 ∧ s.ir = 0 ∧
    (∀ j : Fin 16, s.stack[j] = 0) ∧ (∀ k : Fin 16, s.key[k] = false) ∧
    (∀ x y, pixel s.fb x y = false) ∧ s.fault = .run ∧ s.fault.code = 0 ∧
    (∀ a : Fin 80, s.byteAt a = c.font[a]) ∧
    (∀ a : Nat, 80 ≤ a → a < 4096 → s.byteAt a = (lookupCell c.memInit a).getD 0)) ∧
  State.reset = State.constructed defaultConfig ∧
  (defaultConfig.shiftSource = .x ∧ defaultConfig.vfLast = true ∧ defaultConfig.seVvMode = .self ∧
    defaultConfig.ldstIIncr = false ∧ defaultConfig.fx0aClearKey = false ∧ defaultConfig.memInit = [] ∧
    defaultConfig.font.toList =
      [0xF0, 0x90, 0x90, 0x90, 0xF0] ++ [0x20, 0x60, 0x20, 0x20, 0x70] ++
      [0xF0, 0x10, 0xF0, 0x80, 0xF0] ++ [0xF0, 0x10, 0xF0, 0x10, 0xF0] ++
      [0x90, 0x90, 0xF0, 0x10, 0x10] ++ [0xF0, 0x80, 0xF0, 0x10, 0xF0] ++
      [0xF0, 0x80, 0xF0, 0x90, 0xF0] ++ [0xF0, 0x10, 0x20, 0x40, 0x40] ++
      [0xF0, 0x90, 0xF0, 0x90, 0xF0] ++ [0xF0, 0x90, 0xF0, 0x10, 0xF0] ++
      [0xF0, 0x90, 0xF0, 0x90, 0x90] ++ [0xE0, 0x90, 0xE0, 0x90, 0xE0] ++
      [0xF0, 0x80, 0x80, 0x80, 0xF0] ++ [0xE0, 0x90, 0x90, 0x90, 0xE0] ++
      [0xF0, 0x80, 0xF0, 0x80, 0xF0] ++ [0xF0, 0x80, 0xF0, 0x80, 0x80])

/-- The invariant holds after construction under any parameters, so at reset. -/
def Obligations.ResetMeetsInvariant : Prop :=
  (∀ c : Config, Inv (State.constructed c)) ∧ Inv State.reset

/-- Every step keeps the invariant: the canonical memory, the bounds of 10_state.md R26 on `PC` and the
stack, and a sound FAULT record. -/
def Obligations.StepKeepsInvariant : Prop :=
  ∀ s t : State, Inv s → step s = .next t → Inv t

/-- Every transaction of the host keeps the invariant. -/
def Obligations.TransactionsKeepInvariant : Prop :=
  ∀ (tr : Transaction) (s t : State), Inv s → transact tr s = .next t → Inv t

/-- No transaction changes the parameters (log 1). -/
def Obligations.ParametersNeverChange : Prop :=
  ∀ (tr : Transaction) (s t : State), transact tr s = .next t → t.cfg = s.cfg

/-- The canonical form is one form: two memories in it that read alike at every address of memory are
the same list (log 9). -/
def Obligations.CanonicalMemoryIsUnique : Prop :=
  ∀ (c : Config) (m m' : Memory), m.wf c → m'.wf c →
    (∀ a, a < 4096 → m.read c a = m'.read c a) → m = m'

/-- With no program loaded and the default parameters, cycle k of the first 1792 leaves `PC` at
0x200 + 2k and changes nothing else, and the next one faults at 0x1000. Rests on the spec's decisions
D3, D14, D22 and 70_reset_and_hazards.md R325, which is marked derived. -/
def Obligations.BootWithoutProgram : Prop :=
  (∀ k : Nat, k ≤ 1792 →
    Host.Core.run core k State.reset = .next { State.reset with pc := BitVec.ofNat 16 (0x200 + 2 * k) }) ∧
  Host.Core.run core 1793 State.reset = .next { State.reset with
    pc := 0x1000
    fault := .faulted ⟨.fetchBounds, 0x1000, none, 0x1000⟩ }

/-! ### Control transfer and skips -/

/-- The no-effect operation: the four family defaults change nothing, and a cycle that fetches an
unassigned word only advances `PC` and writes `IR`. -/
def Obligations.NopOnlyAdvances : Prop :=
  (∀ (u : Addr12) (s : State), exec (.nop0 u) s = .next s ∧ exec (.nop8 u) s = .next s ∧
    exec (.nopE u) s = .next s ∧ exec (.nopF u) s = .next s) ∧
  (∀ s : State, s.fault = .run → s.pc.toNat ≤ 0xFFE → Unassigned (s.wordAt s.pc.toNat).toNat →
    step s = .next { s with pc := s.pc + 2, ir := s.wordAt s.pc.toNat })

/-- JP nnn sets `PC` to nnn, whatever it was, and nothing else. -/
def Obligations.JumpSetsPc : Prop :=
  ∀ (nnn : Addr12) (s : State), ∃ t, exec (.jp nnn) s = .next t ∧ OnlyPc s t ∧
    t.pc.toNat = nnn.toNat

/-- JP V0, nnn sets `PC` to V0 + nnn exactly, with no reduction to 12 bits (the spec's decision D3),
and nothing else. -/
def Obligations.JumpV0AddsOffset : Prop :=
  ∀ (nnn : Addr12) (s : State), ∃ t, exec (.jpV0 nnn) s = .next t ∧ OnlyPc s t ∧
    t.pc.toNat = (s.reg 0x0#4).toNat + nnn.toNat

/-- CALL nnn pushes the advanced `PC`, steps `SP` and jumps; with `SP = 16` it raises STACK_OVERFLOW
(the spec's decisions D4, D6). -/
def Obligations.CallPushesReturnAddress : Prop :=
  ∀ (nnn : Addr12) (s : State),
    (s.sp.val < 16 → ∃ t, exec (.call nnn) s = .next t ∧
      t = { s with pc := t.pc, sp := t.sp, stack := t.stack } ∧ SameBytes s t ∧
      (∀ j, t.reg j = s.reg j) ∧ t.pc.toNat = nnn.toNat ∧ t.sp.val = s.sp.val + 1 ∧
      ∀ j : Fin 16, t.stack[j] = if j.val = s.sp.val then s.pc else s.stack[j]) ∧
    (s.sp.val = 16 → Raises (.call nnn) s .stackOverflow 16)

/-- RET jumps to the top entry, whole, and steps `SP` back, the slots unchanged; with `SP = 0` it
raises STACK_UNDERFLOW (the spec's decisions D5, D6). -/
def Obligations.ReturnPopsReturnAddress : Prop :=
  ∀ s : State,
    (∀ j : Fin 16, s.sp.val = j.val + 1 → ∃ t, exec .ret s = .next t ∧
      t = { s with pc := t.pc, sp := t.sp } ∧ SameBytes s t ∧ (∀ k, t.reg k = s.reg k) ∧
      t.pc = s.stack[j] ∧ t.sp.val = j.val) ∧
    (s.sp.val = 0 → Raises .ret s .stackUnderflow 0)

/-- A return undoes the call: after CALL, any state that still has that stack and `SP` returns to the
instruction after the call at the depth before it (90_conflicts.md C2). -/
def Obligations.ReturnUndoesCall : Prop :=
  ∀ (nnn : Addr12) (s : State), s.sp.val < 16 →
    ∃ t, exec (.call nnn) s = .next t ∧
      ∀ t' : State, t'.stack = t.stack → t'.sp = t.sp →
        ∃ u, exec .ret t' = .next u ∧ u.pc = s.pc ∧ u.sp = s.sp

/-- Only CALL and RET move `SP`, by one, and only CALL writes the stack, at the slot `SP` names.
Derived from 10_state.md R30, R31 and 40_control.md R141. -/
def Obligations.StackChangesOnlyByCallAndReturn : Prop :=
  ∀ (i : Instr) (s t : State), exec i s = .next t →
    (t.sp = s.sp ∨ (∃ nnn, i = .call nnn ∧ t.sp.val = s.sp.val + 1) ∨
      (i = .ret ∧ t.sp.val + 1 = s.sp.val)) ∧
    ((∀ nnn, i ≠ .call nnn) → t.stack = s.stack) ∧
    ∀ j : Fin 16, j.val ≠ s.sp.val → t.stack[j] = s.stack[j]

/-- SE Vx, kk skips on equality, SNE Vx, kk and SNE Vx, Vy on difference; none changes anything but
`PC`. -/
def Obligations.ConditionalSkips : Prop :=
  ∀ (x y : Nibble) (kk : Byte) (s : State),
    Skips (.seImm x kk) s (s.reg x = kk) ∧ Skips (.sneImm x kk) s (s.reg x ≠ kk) ∧
    Skips (.sneReg x y) s (s.reg x ≠ s.reg y)

/-- SE Vx, Vy always skips in mode SELF and compares Vx with Vy in mode FIXED (90_conflicts.md C1, the
spec's decision D9). -/
def Obligations.SkipIfRegistersEqual : Prop :=
  ∀ (x y : Nibble) (s : State),
    (s.cfg.seVvMode = .self → Skips (.seReg x y) s True) ∧
    (s.cfg.seVvMode = .fixed → Skips (.seReg x y) s (s.reg x = s.reg y))

/-! ### ALU -/

/-- LD Vx, kk loads kk; ADD Vx, kk adds modulo 256 and writes no flag; nothing else changes. -/
def Obligations.ImmediateLoadAndAdd : Prop :=
  ∀ (x : Nibble) (kk : Byte) (s : State),
    (∃ t, exec (.ldImm x kk) s = .next t ∧ OnlyRegs (· = x) s t ∧ t.reg x = kk) ∧
    (∃ t, exec (.addImm x kk) s = .next t ∧ OnlyRegs (· = x) s t ∧
      (t.reg x).toNat = ((s.reg x).toNat + kk.toNat) % 256)

/-- LD, OR, AND and XOR of two registers, bit by bit, with no flag; nothing else changes. -/
def Obligations.CopyAndBitwise : Prop :=
  ∀ (x y : Nibble) (s : State),
    (∃ t, exec (.ldReg x y) s = .next t ∧ OnlyRegs (· = x) s t ∧ t.reg x = s.reg y) ∧
    (∃ t, exec (.orReg x y) s = .next t ∧ OnlyRegs (· = x) s t ∧
      ∀ k, (t.reg x).getLsbD k = ((s.reg x).getLsbD k || (s.reg y).getLsbD k)) ∧
    (∃ t, exec (.andReg x y) s = .next t ∧ OnlyRegs (· = x) s t ∧
      ∀ k, (t.reg x).getLsbD k = ((s.reg x).getLsbD k && (s.reg y).getLsbD k)) ∧
    (∃ t, exec (.xorReg x y) s = .next t ∧ OnlyRegs (· = x) s t ∧
      ∀ k, (t.reg x).getLsbD k = ((s.reg x).getLsbD k != (s.reg y).getLsbD k))

/-- ADD Vx, Vy: the sum modulo 256 and the carry. The write order when x = F is the spec's decision D8. -/
def Obligations.AddRegistersCarry : Prop :=
  ∀ (x y : Nibble) (s : State),
    ResultAndFlag (.addReg x y) s x (((s.reg x).toNat + (s.reg y).toNat) % 256)
      (if (s.reg x).toNat + (s.reg y).toNat > 255 then 1 else 0)

/-- SUB and SUBN: the difference modulo 256 and the strict "no borrow". The write order when x = F is
the spec's decision D8. -/
def Obligations.SubtractNoBorrow : Prop :=
  ∀ (x y : Nibble) (s : State),
    ResultAndFlag (.subReg x y) s x ((256 + (s.reg x).toNat - (s.reg y).toNat) % 256)
      (if (s.reg x).toNat > (s.reg y).toNat then 1 else 0) ∧
    ResultAndFlag (.subnReg x y) s x ((256 + (s.reg y).toNat - (s.reg x).toNat) % 256)
      (if (s.reg y).toNat > (s.reg x).toNat then 1 else 0)

/-- SHR and SHL: the source shifted by one and the bit it held at the end it leaves by. The source is
Vx, or Vy under `SHIFT_SOURCE = Y`: the spec's decision D7; the write order when x = F is D8. -/
def Obligations.ShiftsByOne : Prop :=
  ∀ (x y : Nibble) (s : State) (src : Nat),
    src = (match s.cfg.shiftSource with | .x => (s.reg x).toNat | .y => (s.reg y).toNat) →
    ResultAndFlag (.shr x y) s x (src / 2) (src % 2) ∧
    ResultAndFlag (.shl x y) s x (src * 2 % 256) (src / 128)

/-- RND Vx, kk: the cycle's free draw AND the mask; zero under mask 0, the draw itself under mask 0xFF.
It takes one draw and changes nothing else. True of every draw; that a counter in the state selects it
is the model's choice (log 3). -/
def Obligations.RandomIsMaskedDraw : Prop :=
  ∀ (x : Nibble) (kk : Byte) (s : State), ∃ t, exec (.rnd x kk) s = .next t ∧
    t = { s with v := t.v, draws := s.draws + 1 } ∧ SameBytes s t ∧
    (∀ j, j ≠ x → t.reg j = s.reg j) ∧
    (∀ k, (t.reg x).getLsbD k = ((Config.freeByte s.draws).getLsbD k && kk.getLsbD k)) ∧
    (kk = 0x00#8 → t.reg x = 0x00#8) ∧ (kk = 0xFF#8 → t.reg x = Config.freeByte s.draws)

/-- Only RND takes a draw, a fresh one each time it executes (41_alu.md R183; the counter is the
model's own, log 3). -/
def Obligations.OnlyRandomTakesADraw : Prop :=
  ∀ (i : Instr) (s t : State), exec i s = .next t →
    ((∃ x kk, i = .rnd x kk) → t.draws = s.draws + 1) ∧
    ((∀ x kk, i ≠ .rnd x kk) → t.draws = s.draws)

/-- No instruction writes a general register that 10_state.md R22 does not list for it, so none writes
VF but the flag operations and those that name it. R22 is marked derived. -/
def Obligations.RegisterWritesAreListed : Prop :=
  ∀ (i : Instr) (s t : State) (j : Nibble), exec i s = .next t → ¬ WritesReg i j → t.reg j = s.reg j

/-! ### Index register and memory -/

/-- LD I, nnn loads nnn; ADD I, Vx adds modulo 2^16, with no flag and no check; nothing else changes. -/
def Obligations.IndexLoadAndAdd : Prop :=
  ∀ (nnn : Addr12) (x : Nibble) (s : State),
    (∃ t, exec (.ldI nnn) s = .next t ∧ OnlyIndex s t ∧ t.i.toNat = nnn.toNat) ∧
    (∃ t, exec (.addI x) s = .next t ∧ OnlyIndex s t ∧
      t.i.toNat = (s.i.toNat + (s.reg x).toNat) % 65536)

/-- LD F, Vx sets I to five times Vx, above 15 too (the spec's decision D13, log 17), and nothing
else. -/
def Obligations.FontAddress : Prop :=
  ∀ (x : Nibble) (s : State), ∃ t, exec (.ldF x) s = .next t ∧ OnlyIndex s t ∧
    t.i.toNat = 5 * (s.reg x).toNat

/-- LD B, Vx stores the three decimal digits at I, I+1, I+2 and nothing else; it raises DATA_BOUNDS
when I + 2 > 0xFFF (the spec's decisions D3, D6). The memory is in canonical form, as every reachable
one is. -/
def Obligations.BcdDigitsStored : Prop :=
  ∀ (x : Nibble) (s : State), s.mem.wf s.cfg →
    (indexAddr s + 2 ≤ 0xFFF → ∃ t, exec (.ldB x) s = .next t ∧ t = { s with mem := t.mem } ∧
      (t.byteAt (indexAddr s)).toNat = (s.reg x).toNat / 100 ∧
      (t.byteAt (indexAddr s + 1)).toNat = (s.reg x).toNat / 10 % 10 ∧
      (t.byteAt (indexAddr s + 2)).toNat = (s.reg x).toNat % 10 ∧
      (∀ j, t.reg j = s.reg j) ∧
      ∀ a, (a < indexAddr s ∨ indexAddr s + 2 < a) → t.byteAt a = s.byteAt a) ∧
    (indexAddr s + 2 > 0xFFF → Raises (.ldB x) s .dataBounds (max s.i.toNat 0x1000))

/-- LD [I], Vx stores V0 to Vx at I to I + x and nothing else, I advanced only under `LDST_I_INCR`
(the spec's decision D10); it raises DATA_BOUNDS when I + x > 0xFFF (D3, D6). -/
def Obligations.RegistersStored : Prop :=
  ∀ (x : Nibble) (s : State), s.mem.wf s.cfg →
    (indexLast x s ≤ 0xFFF → ∃ t, exec (.ldMemVx x) s = .next t ∧
      t = { s with mem := t.mem, i := t.i } ∧
      (∀ j, j.toNat ≤ x.toNat → t.byteAt (indexAddr s + j.toNat) = s.reg j) ∧
      (∀ j, t.reg j = s.reg j) ∧
      (∀ a, (a < indexAddr s ∨ indexLast x s < a) → t.byteAt a = s.byteAt a) ∧
      t.i.toNat = if s.cfg.ldstIIncr then (s.i.toNat + x.toNat + 1) % 65536 else s.i.toNat) ∧
    (indexLast x s > 0xFFF → Raises (.ldMemVx x) s .dataBounds (max s.i.toNat 0x1000))

/-- LD Vx, [I] loads V0 to Vx from I to I + x and nothing else, I advanced only under `LDST_I_INCR`
(the spec's decision D10); it raises DATA_BOUNDS when I + x > 0xFFF (D3, D6). -/
def Obligations.RegistersLoaded : Prop :=
  ∀ (x : Nibble) (s : State),
    (indexLast x s ≤ 0xFFF → ∃ t, exec (.ldVxMem x) s = .next t ∧
      t = { s with v := t.v, i := t.i } ∧ SameBytes s t ∧
      (∀ j, t.reg j = if j.toNat ≤ x.toNat then s.byteAt (indexAddr s + j.toNat) else s.reg j) ∧
      t.i.toNat = if s.cfg.ldstIIncr then (s.i.toNat + x.toNat + 1) % 65536 else s.i.toNat) ∧
    (indexLast x s > 0xFFF → Raises (.ldVxMem x) s .dataBounds (max s.i.toNat 0x1000))

/-- Only LD B, Vx and LD [I], Vx store to memory. Derived from 20_memory.md R60. -/
def Obligations.OnlyTwoInstructionsStore : Prop :=
  ∀ (i : Instr) (s t : State), exec i s = .next t → (∀ x, i ≠ .ldB x) → (∀ x, i ≠ .ldMemVx x) →
    SameBytes s t

/-- A store is seen by the next fetch: after a cycle that completes LD [I], Vx or LD B, Vx, the next
cycle fetches the word at `PC` from memory as the store left it, whichever of its two bytes was stored
over. Derived from 20_memory.md R73 and 70_reset_and_hazards.md R329, which are marked derived. -/
def Obligations.StoreIsSeenByNextFetch : Prop :=
  ∀ (s t : State) (x : Nibble), Inv s → s.fault = .run → s.pc.toNat ≤ 0xFFC →
    step s = .next t → t.fault = .run →
    (decodeWord (s.wordAt s.pc.toNat) = .ldMemVx x →
      ∃ hi lo, fetch t = some (wordOfBytes hi lo) ∧
        RegStored s x (s.pc.toNat + 2) hi ∧ RegStored s x (s.pc.toNat + 3) lo) ∧
    (decodeWord (s.wordAt s.pc.toNat) = .ldB x →
      ∃ hi lo, fetch t = some (wordOfBytes hi lo) ∧
        DigitStored s x (s.pc.toNat + 2) hi ∧ DigitStored s x (s.pc.toNat + 3) lo)

/-! ### Display -/

/-- CLS turns every pixel off and changes nothing else, VF included. -/
def Obligations.ClearScreen : Prop :=
  ∀ s : State, ∃ t, exec .cls s = .next t ∧ t = { s with fb := t.fb } ∧ SameBytes s t ∧
    (∀ j, t.reg j = s.reg j) ∧ ∀ c r, pixel t.fb c r = false

/-- DRW toggles exactly the pixels its set sprite bits land on, wrapped, sets VF to 1 exactly when a
pixel went off and to 0 otherwise, and changes nothing else; a sprite that leaves memory raises
DATA_BOUNDS instead. Bit 7 as the leftmost pixel is the spec's decision D20 (log 18), the bounds D3, the
fault's entry D6. -/
def Obligations.DrawTogglesSpritePixels : Prop :=
  ∀ (x y n : Nibble) (s : State),
    (SpriteInside s n → ∃ t, exec (.drw x y n) s = .next t ∧ t = { s with v := t.v, fb := t.fb } ∧
      SameBytes s t ∧ (∀ j, j ≠ 0xF#4 → t.reg j = s.reg j) ∧
      (∀ c r, pixel t.fb c r ≠ pixel s.fb c r ↔ SpriteHits s x y n c r) ∧
      ((∃ c r, pixel s.fb c r = true ∧ pixel t.fb c r = false) → t.reg 0xF#4 = 0x01#8) ∧
      ((∀ c r, pixel s.fb c r = true → pixel t.fb c r = true) → t.reg 0xF#4 = 0x00#8)) ∧
    (¬ SpriteInside s n → Raises (.drw x y n) s .dataBounds (max s.i.toNat 0x1000))

/-- A draw undoes itself: the same DRW with the same origin, I and sprite bytes on the screen the first
left restores it, and its VF is 1 exactly when a pixel the sprite hits was off before the first draw.
Derived from 43_display.md R243, which is marked derived. -/
def Obligations.DrawTwiceRestoresScreen : Prop :=
  ∀ (x y n : Nibble) (s t s' u : State), SpriteInside s n →
    exec (.drw x y n) s = .next t →
    s'.fb = t.fb → s'.reg x = s.reg x → s'.reg y = s.reg y → s'.i = s.i →
    (∀ row, row < n.toNat → s'.byteAt (s.i.toNat + row) = s.byteAt (s.i.toNat + row)) →
    exec (.drw x y n) s' = .next u →
    u.fb = s.fb ∧
    (u.reg 0xF#4 = 0x01#8 ↔ ∃ c r, SpriteHits s x y n c r ∧ pixel s.fb c r = false)

/-- A one-row sprite 0xC0 drawn at column 63 toggles columns 63 and 0 of its row and no other pixel.
Derived from 43_display.md R245, which is marked derived. -/
def Obligations.DrawWrapsAtColumn63 : Prop :=
  ∀ (x y : Nibble) (s : State), (s.reg x).toNat = 63 → s.i.toNat ≤ 0xFFF →
    s.byteAt s.i.toNat = 0xC0#8 →
    ∃ t, exec (.drw x y 1) s = .next t ∧
      ∀ (c : Fin 64) (r : Fin 32), pixel t.fb c r ≠ pixel s.fb c r ↔
        (c = 63 ∨ c = 0) ∧ r.val = (s.reg y).toNat % 32

/-- Only CLS and DRW change the framebuffer. Derived from 10_state.md R35. -/
def Obligations.FramebufferChangesOnlyByClsAndDrw : Prop :=
  ∀ (i : Instr) (s t : State), exec i s = .next t → i ≠ .cls → (∀ x y n, i ≠ .drw x y n) →
    t.fb = s.fb

/-! ### Keys and timers -/

/-- SKP skips when key Vx is pressed, SKNP when it is not; above 15 both raise KEY_RANGE (the spec's
decisions D12, D6). -/
def Obligations.SkipsOnKeys : Prop :=
  ∀ (x : Nibble) (s : State),
    (∀ k : Fin 16, (s.reg x).toNat = k.val →
      Skips (.skp x) s (s.key[k] = true) ∧ Skips (.sknp x) s (s.key[k] = false)) ∧
    ((s.reg x).toNat > 15 → Raises (.skp x) s .keyRange (s.reg x).toNat ∧
      Raises (.sknp x) s .keyRange (s.reg x).toNat)

/-- LD Vx, K with no key pressed goes back to its own address and changes nothing else; else it writes
the least pressed key to Vx, releasing it only under `FX0A_CLEAR_KEY`. The level test, the choice of
key and the wait are the spec's decision D11 (log 18). -/
def Obligations.WaitForKey : Prop :=
  ∀ (x : Nibble) (s : State),
    ((∀ k : Fin 16, s.key[k] = false) →
      ∃ t, exec (.ldVxK x) s = .next t ∧ OnlyPc s t ∧ t.pc = s.pc - 2) ∧
    (∀ k : Fin 16, s.key[k] = true → (∀ j : Fin 16, j < k → s.key[j] = false) →
      ∃ t, exec (.ldVxK x) s = .next t ∧ t = { s with v := t.v, key := t.key } ∧ SameBytes s t ∧
        (t.reg x).toNat = k.val ∧ (∀ j, j ≠ x → t.reg j = s.reg j) ∧
        ∀ j : Fin 16, t.key[j] = if s.cfg.fx0aClearKey = true ∧ j = k then false else s.key[j])

/-- LD Vx, DT copies DT to Vx; LD DT, Vx and LD ST, Vx copy Vx to a timer; nothing else changes. -/
def Obligations.TimerCopies : Prop :=
  ∀ (x : Nibble) (s : State),
    (∃ t, exec (.ldVxDt x) s = .next t ∧ OnlyRegs (· = x) s t ∧ t.reg x = s.dt) ∧
    (∃ t, exec (.ldDtVx x) s = .next t ∧ t = { s with dt := s.reg x } ∧ SameBytes s t ∧
      ∀ j, t.reg j = s.reg j) ∧
    (∃ t, exec (.ldStVx x) s = .next t ∧ t = { s with st := s.reg x } ∧ SameBytes s t ∧
      ∀ j, t.reg j = s.reg j)

/-- Instructions do not count the timers: only LD DT, Vx changes DT and only LD ST, Vx changes ST.
Derived from 10_state.md R32, R33. -/
def Obligations.TimersChangeOnlyByTheirLoads : Prop :=
  ∀ (i : Instr) (s t : State), exec i s = .next t →
    ((∀ x, i ≠ .ldDtVx x) → t.dt = s.dt) ∧ ((∀ x, i ≠ .ldStVx x) → t.st = s.st)

/-- No instruction changes the keypad but LD Vx, K under `FX0A_CLEAR_KEY`. Derived from 10_state.md
R34 (the spec's decision D11). -/
def Obligations.KeypadChangesOnlyByWait : Prop :=
  ∀ (i : Instr) (s t : State), exec i s = .next t →
    ((∀ x, i ≠ .ldVxK x) ∨ s.cfg.fx0aClearKey = false) → t.key = s.key

/-! ### The host's transactions -/

/-- `tick_timers` takes one from each timer that is above 0 and leaves 0 at 0; nothing else changes. -/
def Obligations.TickDecrementsClamped : Prop :=
  ∀ s : State, ∃ t, transact .tickTimers s = .next t ∧ t = { s with dt := t.dt, st := t.st } ∧
    t.dt.toNat = s.dt.toNat - 1 ∧ t.st.toNat = s.st.toNat - 1

/-- The host's keypad write sets all 16 slots of `KEY` to the slots it is given and nothing else, and
the skips of the next cycle test what it wrote. Derived from 60_exceptions.md R291. -/
def Obligations.KeypadWriteIsSeen : Prop :=
  ∀ (keys : Vector Bool 16) (s : State), ∃ t, transact (.writeKeypad keys) s = .next t ∧
    t = { s with key := t.key } ∧ t.key = keys ∧
    ∀ (x : Nibble) (k : Fin 16), (s.reg x).toNat = k.val →
      Skips (.skp x) t (keys[k] = true) ∧ Skips (.sknp x) t (keys[k] = false)

/-- `load` of at most 3584 bytes succeeds, copies the image to 0x200 and up, and changes nothing else. -/
def Obligations.LoadCopiesImage : Prop :=
  ∀ (image : List Byte) (s : State), s.mem.wf s.cfg → image.length ≤ 3584 →
    (load image s).2 = .success ∧ (load image s).1 = { s with mem := (load image s).1.mem } ∧
    ∀ a, (load image s).1.byteAt a =
      if 0x200 ≤ a ∧ a < 0x200 + image.length then image.getD (a - 0x200) 0 else s.byteAt a

/-- A failed load changes nothing: neither one too long nor one whose source cannot be read. Derived from
70_reset_and_hazards.md R322, R323 and 90_conflicts.md C5; that an unreadable source is the argument
`none` is the model's choice (log 20). -/
def Obligations.FailedLoadChangesNothing : Prop :=
  (∀ (image : List Byte) (s : State), image.length > 3584 → load image s = (s, .failure)) ∧
  ∀ s : State, loadSource none s = (s, .failure)

/-- The framebuffer view is row-major: 2048 elements, `r*64 + c` being `FB[c][r]`; reading it changes
nothing. -/
def Obligations.FramebufferViewIsRowMajor : Prop :=
  ∀ s : State, transact .readFramebuffer s = .next s ∧ (readFramebuffer s).length = 2048 ∧
    ∀ (c : Fin 64) (r : Fin 32), (readFramebuffer s)[r.val * 64 + c.val]? = some (pixel s.fb c r)

/-- A running core that fetches the word 0x0000 clears the screen, writes 0 to `IR`, advances `PC` by 2
and changes nothing else. Derived from 70_reset_and_hazards.md R325, which is marked derived (that the
word is CLS is the spec's decisions D22, D23). -/
def Obligations.ZeroWordClearsScreen : Prop :=
  ∀ s : State, s.fault = .run → s.pc.toNat ≤ 0xFFE →
    s.byteAt s.pc.toNat = 0x00#8 → s.byteAt (s.pc.toNat + 1) = 0x00#8 →
    ∃ t, step s = .next t ∧ t = { s with pc := s.pc + 2, ir := 0x0000#16, fb := t.fb } ∧
      ∀ c r, pixel t.fb c r = false
end

