-- ==== Sys2Proof/Laws/Decode.lean ====
section
/-! SUPPORT. The bits and fields of a packed word (30_encoding.md R91, R92). -/

namespace Sys2Proof

theorem getLsbD_packNNN (op : Nibble) (u : Addr12) (k : Nat) :
    (packNNN op u).getLsbD k = if k < 12 then u.getLsbD k else op.getLsbD (k - 12) :=
  BitVec.getLsbD_append.trans (by cases h : decide (k < 12) <;> simp_all)

theorem getLsbD_packXKK (op x : Nibble) (kk : Byte) (k : Nat) :
    (packXKK op x kk).getLsbD k =
      if k < 8 then kk.getLsbD k else if k < 12 then x.getLsbD (k - 8) else op.getLsbD (k - 12) := by
  have h : (packXKK op x kk).getLsbD k =
      if k < 8 then kk.getLsbD k else (op ++ x).getLsbD (k - 8) :=
    BitVec.getLsbD_append.trans (by cases h : decide (k < 8) <;> simp_all)
  have h' : (op ++ x).getLsbD (k - 8) =
      if k - 8 < 4 then x.getLsbD (k - 8) else op.getLsbD (k - 8 - 4) :=
    BitVec.getLsbD_append.trans (by cases h : decide (k - 8 < 4) <;> simp_all)
  rw [h, h']
  by_cases h1 : k < 8
  · simp [h1]
  · by_cases h2 : k < 12
    · simp [h1, h2, show k - 8 < 4 by omega]
    · simp [h1, h2, show ¬ k - 8 < 4 by omega, show k - 8 - 4 = k - 12 by omega]

theorem getLsbD_packXYN (op x y n : Nibble) (k : Nat) :
    (packXYN op x y n).getLsbD k =
      if k < 4 then n.getLsbD k else if k < 8 then y.getLsbD (k - 4)
      else if k < 12 then x.getLsbD (k - 8) else op.getLsbD (k - 12) := by
  have h : (packXYN op x y n).getLsbD k =
      if k < 4 then n.getLsbD k else (op ++ x ++ y).getLsbD (k - 4) :=
    BitVec.getLsbD_append.trans (by cases h : decide (k < 4) <;> simp_all)
  have h' : (op ++ x ++ y).getLsbD (k - 4) =
      if k - 4 < 4 then y.getLsbD (k - 4) else (op ++ x).getLsbD (k - 4 - 4) :=
    BitVec.getLsbD_append.trans (by cases h : decide (k - 4 < 4) <;> simp_all)
  have h'' : (op ++ x).getLsbD (k - 4 - 4) =
      if k - 4 - 4 < 4 then x.getLsbD (k - 4 - 4) else op.getLsbD (k - 4 - 4 - 4) :=
    BitVec.getLsbD_append.trans (by cases h : decide (k - 4 - 4 < 4) <;> simp_all)
  rw [h, h', h'']
  by_cases h1 : k < 4
  · simp [h1]
  · by_cases h2 : k < 8
    · simp [h1, h2, show k - 4 < 4 by omega]
    · by_cases h3 : k < 12
      · simp [h1, h2, h3, show ¬ k - 4 < 4 by omega, show k - 8 < 4 by omega,
          show k - 4 - 4 = k - 8 by omega]
      · simp [h1, h2, h3, show ¬ k - 4 < 4 by omega, show ¬ k - 4 - 4 < 4 by omega,
          show k - 4 - 4 - 4 = k - 12 by omega]

/-- Fields are read bit by bit. -/
theorem getLsbD_fieldOp (w : Word) (k : Nat) :
    (fieldOp w).getLsbD k = (decide (k < 4) && w.getLsbD (12 + k)) := BitVec.getLsbD_extractLsb' _ _ _ _
theorem getLsbD_fieldX (w : Word) (k : Nat) :
    (fieldX w).getLsbD k = (decide (k < 4) && w.getLsbD (8 + k)) := BitVec.getLsbD_extractLsb' _ _ _ _
theorem getLsbD_fieldY (w : Word) (k : Nat) :
    (fieldY w).getLsbD k = (decide (k < 4) && w.getLsbD (4 + k)) := BitVec.getLsbD_extractLsb' _ _ _ _
theorem getLsbD_fieldN (w : Word) (k : Nat) :
    (fieldN w).getLsbD k = (decide (k < 4) && w.getLsbD (0 + k)) := BitVec.getLsbD_extractLsb' _ _ _ _
theorem getLsbD_fieldKK (w : Word) (k : Nat) :
    (fieldKK w).getLsbD k = (decide (k < 8) && w.getLsbD (0 + k)) := BitVec.getLsbD_extractLsb' _ _ _ _
theorem getLsbD_fieldNNN (w : Word) (k : Nat) :
    (fieldNNN w).getLsbD k = (decide (k < 12) && w.getLsbD (0 + k)) := BitVec.getLsbD_extractLsb' _ _ _ _

@[simp] theorem fieldOp_packNNN (op : Nibble) (u : Addr12) : fieldOp (packNNN op u) = op := by
  refine BitVec.eq_of_getLsbD_eq fun k hk => ?_
  rw [getLsbD_fieldOp, getLsbD_packNNN, decide_eq_true hk, Bool.true_and]
  interval_cases k <;> rfl

@[simp] theorem fieldNNN_packNNN (op : Nibble) (u : Addr12) : fieldNNN (packNNN op u) = u := by
  refine BitVec.eq_of_getLsbD_eq fun k hk => ?_
  rw [getLsbD_fieldNNN, getLsbD_packNNN, decide_eq_true hk, Bool.true_and]
  interval_cases k <;> rfl

@[simp] theorem fieldOp_packXKK (op x : Nibble) (kk : Byte) : fieldOp (packXKK op x kk) = op := by
  refine BitVec.eq_of_getLsbD_eq fun k hk => ?_
  rw [getLsbD_fieldOp, getLsbD_packXKK, decide_eq_true hk, Bool.true_and]
  interval_cases k <;> rfl

@[simp] theorem fieldX_packXKK (op x : Nibble) (kk : Byte) : fieldX (packXKK op x kk) = x := by
  refine BitVec.eq_of_getLsbD_eq fun k hk => ?_
  rw [getLsbD_fieldX, getLsbD_packXKK, decide_eq_true hk, Bool.true_and]
  interval_cases k <;> rfl

@[simp] theorem fieldKK_packXKK (op x : Nibble) (kk : Byte) : fieldKK (packXKK op x kk) = kk := by
  refine BitVec.eq_of_getLsbD_eq fun k hk => ?_
  rw [getLsbD_fieldKK, getLsbD_packXKK, decide_eq_true hk, Bool.true_and]
  interval_cases k <;> rfl

@[simp] theorem fieldOp_packXYN (op x y n : Nibble) : fieldOp (packXYN op x y n) = op := by
  refine BitVec.eq_of_getLsbD_eq fun k hk => ?_
  rw [getLsbD_fieldOp, getLsbD_packXYN, decide_eq_true hk, Bool.true_and]
  interval_cases k <;> rfl

@[simp] theorem fieldX_packXYN (op x y n : Nibble) : fieldX (packXYN op x y n) = x := by
  refine BitVec.eq_of_getLsbD_eq fun k hk => ?_
  rw [getLsbD_fieldX, getLsbD_packXYN, decide_eq_true hk, Bool.true_and]
  interval_cases k <;> rfl

@[simp] theorem fieldY_packXYN (op x y n : Nibble) : fieldY (packXYN op x y n) = y := by
  refine BitVec.eq_of_getLsbD_eq fun k hk => ?_
  rw [getLsbD_fieldY, getLsbD_packXYN, decide_eq_true hk, Bool.true_and]
  interval_cases k <;> rfl

@[simp] theorem fieldN_packXYN (op x y n : Nibble) : fieldN (packXYN op x y n) = n := by
  refine BitVec.eq_of_getLsbD_eq fun k hk => ?_
  rw [getLsbD_fieldN, getLsbD_packXYN, decide_eq_true hk, Bool.true_and]
  interval_cases k <;> rfl

/-- The selectors of a word packed from `op` and 12 bits (30_encoding.md R95 to R98). -/
@[simp] theorem fieldN_packNNN (op : Nibble) (u : Addr12) : fieldN (packNNN op u) = selN u := by
  refine BitVec.eq_of_getLsbD_eq fun k hk => ?_
  rw [getLsbD_fieldN, getLsbD_packNNN, selN, BitVec.getLsbD_extractLsb', decide_eq_true hk]
  interval_cases k <;> rfl

@[simp] theorem fieldKK_packNNN (op : Nibble) (u : Addr12) : fieldKK (packNNN op u) = selKK u := by
  refine BitVec.eq_of_getLsbD_eq fun k hk => ?_
  rw [getLsbD_fieldKK, getLsbD_packNNN, selKK, BitVec.getLsbD_extractLsb', decide_eq_true hk]
  interval_cases k <;> rfl

@[simp] theorem fieldN_packXKK (op x : Nibble) (kk : Byte) :
    fieldN (packXKK op x kk) = kk.extractLsb' 0 4 := by
  refine BitVec.eq_of_getLsbD_eq fun k hk => ?_
  rw [getLsbD_fieldN, getLsbD_packXKK, BitVec.getLsbD_extractLsb', decide_eq_true hk]
  interval_cases k <;> rfl

end Sys2Proof
end

