-- ==== Sys2Proof/Laws/State.lean ====
section
/-! SUPPORT. One lemma per field per update of State, true by unfolding, and the register file's
read-after-write lemmas. -/

namespace Sys2Proof.Machine

@[simp] theorem State.setReg_mem (s : State) (x : Nibble) (b : Byte) : (s.setReg x b).mem = s.mem := rfl
@[simp] theorem State.setReg_v (s : State) (x : Nibble) (b : Byte) : (s.setReg x b).v = s.v.set x.toNat b := rfl
@[simp] theorem State.setReg_i (s : State) (x : Nibble) (b : Byte) : (s.setReg x b).i = s.i := rfl
@[simp] theorem State.setReg_pc (s : State) (x : Nibble) (b : Byte) : (s.setReg x b).pc = s.pc := rfl
@[simp] theorem State.setReg_stack (s : State) (x : Nibble) (b : Byte) : (s.setReg x b).stack = s.stack := rfl
@[simp] theorem State.setReg_sp (s : State) (x : Nibble) (b : Byte) : (s.setReg x b).sp = s.sp := rfl
@[simp] theorem State.setReg_dt (s : State) (x : Nibble) (b : Byte) : (s.setReg x b).dt = s.dt := rfl
@[simp] theorem State.setReg_st (s : State) (x : Nibble) (b : Byte) : (s.setReg x b).st = s.st := rfl
@[simp] theorem State.setReg_key (s : State) (x : Nibble) (b : Byte) : (s.setReg x b).key = s.key := rfl
@[simp] theorem State.setReg_fb (s : State) (x : Nibble) (b : Byte) : (s.setReg x b).fb = s.fb := rfl
@[simp] theorem State.setReg_ir (s : State) (x : Nibble) (b : Byte) : (s.setReg x b).ir = s.ir := rfl
@[simp] theorem State.setReg_fault (s : State) (x : Nibble) (b : Byte) : (s.setReg x b).fault = s.fault := rfl
@[simp] theorem State.setReg_draws (s : State) (x : Nibble) (b : Byte) : (s.setReg x b).draws = s.draws := rfl
@[simp] theorem State.setReg_cfg (s : State) (x : Nibble) (b : Byte) : (s.setReg x b).cfg = s.cfg := rfl

@[simp] theorem State.setPc_mem (s : State) (p : Word) : (s.setPc p).mem = s.mem := rfl
@[simp] theorem State.setPc_v (s : State) (p : Word) : (s.setPc p).v = s.v := rfl
@[simp] theorem State.setPc_i (s : State) (p : Word) : (s.setPc p).i = s.i := rfl
@[simp] theorem State.setPc_pc (s : State) (p : Word) : (s.setPc p).pc = p := rfl
@[simp] theorem State.setPc_stack (s : State) (p : Word) : (s.setPc p).stack = s.stack := rfl
@[simp] theorem State.setPc_sp (s : State) (p : Word) : (s.setPc p).sp = s.sp := rfl
@[simp] theorem State.setPc_dt (s : State) (p : Word) : (s.setPc p).dt = s.dt := rfl
@[simp] theorem State.setPc_st (s : State) (p : Word) : (s.setPc p).st = s.st := rfl
@[simp] theorem State.setPc_key (s : State) (p : Word) : (s.setPc p).key = s.key := rfl
@[simp] theorem State.setPc_fb (s : State) (p : Word) : (s.setPc p).fb = s.fb := rfl
@[simp] theorem State.setPc_ir (s : State) (p : Word) : (s.setPc p).ir = s.ir := rfl
@[simp] theorem State.setPc_fault (s : State) (p : Word) : (s.setPc p).fault = s.fault := rfl
@[simp] theorem State.setPc_draws (s : State) (p : Word) : (s.setPc p).draws = s.draws := rfl
@[simp] theorem State.setPc_cfg (s : State) (p : Word) : (s.setPc p).cfg = s.cfg := rfl

@[simp] theorem State.setI_mem (s : State) (p : Word) : (s.setI p).mem = s.mem := rfl
@[simp] theorem State.setI_v (s : State) (p : Word) : (s.setI p).v = s.v := rfl
@[simp] theorem State.setI_i (s : State) (p : Word) : (s.setI p).i = p := rfl
@[simp] theorem State.setI_pc (s : State) (p : Word) : (s.setI p).pc = s.pc := rfl
@[simp] theorem State.setI_stack (s : State) (p : Word) : (s.setI p).stack = s.stack := rfl
@[simp] theorem State.setI_sp (s : State) (p : Word) : (s.setI p).sp = s.sp := rfl
@[simp] theorem State.setI_dt (s : State) (p : Word) : (s.setI p).dt = s.dt := rfl
@[simp] theorem State.setI_st (s : State) (p : Word) : (s.setI p).st = s.st := rfl
@[simp] theorem State.setI_key (s : State) (p : Word) : (s.setI p).key = s.key := rfl
@[simp] theorem State.setI_fb (s : State) (p : Word) : (s.setI p).fb = s.fb := rfl
@[simp] theorem State.setI_ir (s : State) (p : Word) : (s.setI p).ir = s.ir := rfl
@[simp] theorem State.setI_fault (s : State) (p : Word) : (s.setI p).fault = s.fault := rfl
@[simp] theorem State.setI_draws (s : State) (p : Word) : (s.setI p).draws = s.draws := rfl
@[simp] theorem State.setI_cfg (s : State) (p : Word) : (s.setI p).cfg = s.cfg := rfl

@[simp] theorem State.storeBytes_mem (s : State) (a : Nat) (bs : List Byte) : (s.storeBytes a bs).mem = s.mem.writeMany s.cfg a bs := rfl
@[simp] theorem State.storeBytes_v (s : State) (a : Nat) (bs : List Byte) : (s.storeBytes a bs).v = s.v := rfl
@[simp] theorem State.storeBytes_i (s : State) (a : Nat) (bs : List Byte) : (s.storeBytes a bs).i = s.i := rfl
@[simp] theorem State.storeBytes_pc (s : State) (a : Nat) (bs : List Byte) : (s.storeBytes a bs).pc = s.pc := rfl
@[simp] theorem State.storeBytes_stack (s : State) (a : Nat) (bs : List Byte) : (s.storeBytes a bs).stack = s.stack := rfl
@[simp] theorem State.storeBytes_sp (s : State) (a : Nat) (bs : List Byte) : (s.storeBytes a bs).sp = s.sp := rfl
@[simp] theorem State.storeBytes_dt (s : State) (a : Nat) (bs : List Byte) : (s.storeBytes a bs).dt = s.dt := rfl
@[simp] theorem State.storeBytes_st (s : State) (a : Nat) (bs : List Byte) : (s.storeBytes a bs).st = s.st := rfl
@[simp] theorem State.storeBytes_key (s : State) (a : Nat) (bs : List Byte) : (s.storeBytes a bs).key = s.key := rfl
@[simp] theorem State.storeBytes_fb (s : State) (a : Nat) (bs : List Byte) : (s.storeBytes a bs).fb = s.fb := rfl
@[simp] theorem State.storeBytes_ir (s : State) (a : Nat) (bs : List Byte) : (s.storeBytes a bs).ir = s.ir := rfl
@[simp] theorem State.storeBytes_fault (s : State) (a : Nat) (bs : List Byte) : (s.storeBytes a bs).fault = s.fault := rfl
@[simp] theorem State.storeBytes_draws (s : State) (a : Nat) (bs : List Byte) : (s.storeBytes a bs).draws = s.draws := rfl
@[simp] theorem State.storeBytes_cfg (s : State) (a : Nat) (bs : List Byte) : (s.storeBytes a bs).cfg = s.cfg := rfl

@[simp] theorem State.releaseKey_mem (s : State) (k : Nibble) : (s.releaseKey k).mem = s.mem := rfl
@[simp] theorem State.releaseKey_v (s : State) (k : Nibble) : (s.releaseKey k).v = s.v := rfl
@[simp] theorem State.releaseKey_i (s : State) (k : Nibble) : (s.releaseKey k).i = s.i := rfl
@[simp] theorem State.releaseKey_pc (s : State) (k : Nibble) : (s.releaseKey k).pc = s.pc := rfl
@[simp] theorem State.releaseKey_stack (s : State) (k : Nibble) : (s.releaseKey k).stack = s.stack := rfl
@[simp] theorem State.releaseKey_sp (s : State) (k : Nibble) : (s.releaseKey k).sp = s.sp := rfl
@[simp] theorem State.releaseKey_dt (s : State) (k : Nibble) : (s.releaseKey k).dt = s.dt := rfl
@[simp] theorem State.releaseKey_st (s : State) (k : Nibble) : (s.releaseKey k).st = s.st := rfl
@[simp] theorem State.releaseKey_key (s : State) (k : Nibble) : (s.releaseKey k).key = s.key.set k.toNat false := rfl
@[simp] theorem State.releaseKey_fb (s : State) (k : Nibble) : (s.releaseKey k).fb = s.fb := rfl
@[simp] theorem State.releaseKey_ir (s : State) (k : Nibble) : (s.releaseKey k).ir = s.ir := rfl
@[simp] theorem State.releaseKey_fault (s : State) (k : Nibble) : (s.releaseKey k).fault = s.fault := rfl
@[simp] theorem State.releaseKey_draws (s : State) (k : Nibble) : (s.releaseKey k).draws = s.draws := rfl
@[simp] theorem State.releaseKey_cfg (s : State) (k : Nibble) : (s.releaseKey k).cfg = s.cfg := rfl

@[simp] theorem takeFault_mem (c : FaultCause) (p : Word) (w : Option Word) (n : Word) (s : State) :
    (takeFault c p w n s).mem = s.mem := rfl
@[simp] theorem takeFault_v (c : FaultCause) (p : Word) (w : Option Word) (n : Word) (s : State) :
    (takeFault c p w n s).v = s.v := rfl
@[simp] theorem takeFault_i (c : FaultCause) (p : Word) (w : Option Word) (n : Word) (s : State) :
    (takeFault c p w n s).i = s.i := rfl
@[simp] theorem takeFault_pc (c : FaultCause) (p : Word) (w : Option Word) (n : Word) (s : State) :
    (takeFault c p w n s).pc = p := rfl
@[simp] theorem takeFault_stack (c : FaultCause) (p : Word) (w : Option Word) (n : Word) (s : State) :
    (takeFault c p w n s).stack = s.stack := rfl
@[simp] theorem takeFault_sp (c : FaultCause) (p : Word) (w : Option Word) (n : Word) (s : State) :
    (takeFault c p w n s).sp = s.sp := rfl
@[simp] theorem takeFault_dt (c : FaultCause) (p : Word) (w : Option Word) (n : Word) (s : State) :
    (takeFault c p w n s).dt = s.dt := rfl
@[simp] theorem takeFault_st (c : FaultCause) (p : Word) (w : Option Word) (n : Word) (s : State) :
    (takeFault c p w n s).st = s.st := rfl
@[simp] theorem takeFault_key (c : FaultCause) (p : Word) (w : Option Word) (n : Word) (s : State) :
    (takeFault c p w n s).key = s.key := rfl
@[simp] theorem takeFault_fb (c : FaultCause) (p : Word) (w : Option Word) (n : Word) (s : State) :
    (takeFault c p w n s).fb = s.fb := rfl
@[simp] theorem takeFault_ir (c : FaultCause) (p : Word) (w : Option Word) (n : Word) (s : State) :
    (takeFault c p w n s).ir = s.ir := rfl
@[simp] theorem takeFault_fault (c : FaultCause) (p : Word) (w : Option Word) (n : Word) (s : State) :
    (takeFault c p w n s).fault = .faulted ⟨c, p, w, n⟩ := rfl
@[simp] theorem takeFault_draws (c : FaultCause) (p : Word) (w : Option Word) (n : Word) (s : State) :
    (takeFault c p w n s).draws = s.draws := rfl
@[simp] theorem takeFault_cfg (c : FaultCause) (p : Word) (w : Option Word) (n : Word) (s : State) :
    (takeFault c p w n s).cfg = s.cfg := rfl

@[simp] theorem advance_mem (w : Word) (s : State) : (advance w s).mem = s.mem := rfl
@[simp] theorem advance_v (w : Word) (s : State) : (advance w s).v = s.v := rfl
@[simp] theorem advance_i (w : Word) (s : State) : (advance w s).i = s.i := rfl
@[simp] theorem advance_pc (w : Word) (s : State) : (advance w s).pc = s.pc + 2 := rfl
@[simp] theorem advance_stack (w : Word) (s : State) : (advance w s).stack = s.stack := rfl
@[simp] theorem advance_sp (w : Word) (s : State) : (advance w s).sp = s.sp := rfl
@[simp] theorem advance_dt (w : Word) (s : State) : (advance w s).dt = s.dt := rfl
@[simp] theorem advance_st (w : Word) (s : State) : (advance w s).st = s.st := rfl
@[simp] theorem advance_key (w : Word) (s : State) : (advance w s).key = s.key := rfl
@[simp] theorem advance_fb (w : Word) (s : State) : (advance w s).fb = s.fb := rfl
@[simp] theorem advance_ir (w : Word) (s : State) : (advance w s).ir = w := rfl
@[simp] theorem advance_fault (w : Word) (s : State) : (advance w s).fault = s.fault := rfl
@[simp] theorem advance_draws (w : Word) (s : State) : (advance w s).draws = s.draws := rfl
@[simp] theorem advance_cfg (w : Word) (s : State) : (advance w s).cfg = s.cfg := rfl

@[simp] theorem skipIf_mem (c : Bool) (s : State) : (skipIf c s).mem = s.mem := by cases c <;> rfl
@[simp] theorem skipIf_v (c : Bool) (s : State) : (skipIf c s).v = s.v := by cases c <;> rfl
@[simp] theorem skipIf_i (c : Bool) (s : State) : (skipIf c s).i = s.i := by cases c <;> rfl
@[simp] theorem skipIf_pc (c : Bool) (s : State) :
    (skipIf c s).pc = if c then s.pc + 2 else s.pc := by cases c <;> rfl
@[simp] theorem skipIf_stack (c : Bool) (s : State) : (skipIf c s).stack = s.stack := by cases c <;> rfl
@[simp] theorem skipIf_sp (c : Bool) (s : State) : (skipIf c s).sp = s.sp := by cases c <;> rfl
@[simp] theorem skipIf_dt (c : Bool) (s : State) : (skipIf c s).dt = s.dt := by cases c <;> rfl
@[simp] theorem skipIf_st (c : Bool) (s : State) : (skipIf c s).st = s.st := by cases c <;> rfl
@[simp] theorem skipIf_key (c : Bool) (s : State) : (skipIf c s).key = s.key := by cases c <;> rfl
@[simp] theorem skipIf_fb (c : Bool) (s : State) : (skipIf c s).fb = s.fb := by cases c <;> rfl
@[simp] theorem skipIf_ir (c : Bool) (s : State) : (skipIf c s).ir = s.ir := by cases c <;> rfl
@[simp] theorem skipIf_fault (c : Bool) (s : State) : (skipIf c s).fault = s.fault := by cases c <;> rfl
@[simp] theorem skipIf_draws (c : Bool) (s : State) : (skipIf c s).draws = s.draws := by cases c <;> rfl
@[simp] theorem skipIf_cfg (c : Bool) (s : State) : (skipIf c s).cfg = s.cfg := by cases c <;> rfl

@[simp] theorem commitFlag_mem (x : Nibble) (b : Byte) (f : Bool) (s : State) :
    (commitFlag x b f s).mem = s.mem := by unfold commitFlag; split <;> rfl
@[simp] theorem commitFlag_i (x : Nibble) (b : Byte) (f : Bool) (s : State) :
    (commitFlag x b f s).i = s.i := by unfold commitFlag; split <;> rfl
@[simp] theorem commitFlag_pc (x : Nibble) (b : Byte) (f : Bool) (s : State) :
    (commitFlag x b f s).pc = s.pc := by unfold commitFlag; split <;> rfl
@[simp] theorem commitFlag_stack (x : Nibble) (b : Byte) (f : Bool) (s : State) :
    (commitFlag x b f s).stack = s.stack := by unfold commitFlag; split <;> rfl
@[simp] theorem commitFlag_sp (x : Nibble) (b : Byte) (f : Bool) (s : State) :
    (commitFlag x b f s).sp = s.sp := by unfold commitFlag; split <;> rfl
@[simp] theorem commitFlag_dt (x : Nibble) (b : Byte) (f : Bool) (s : State) :
    (commitFlag x b f s).dt = s.dt := by unfold commitFlag; split <;> rfl
@[simp] theorem commitFlag_st (x : Nibble) (b : Byte) (f : Bool) (s : State) :
    (commitFlag x b f s).st = s.st := by unfold commitFlag; split <;> rfl
@[simp] theorem commitFlag_key (x : Nibble) (b : Byte) (f : Bool) (s : State) :
    (commitFlag x b f s).key = s.key := by unfold commitFlag; split <;> rfl
@[simp] theorem commitFlag_fb (x : Nibble) (b : Byte) (f : Bool) (s : State) :
    (commitFlag x b f s).fb = s.fb := by unfold commitFlag; split <;> rfl
@[simp] theorem commitFlag_ir (x : Nibble) (b : Byte) (f : Bool) (s : State) :
    (commitFlag x b f s).ir = s.ir := by unfold commitFlag; split <;> rfl
@[simp] theorem commitFlag_fault (x : Nibble) (b : Byte) (f : Bool) (s : State) :
    (commitFlag x b f s).fault = s.fault := by unfold commitFlag; split <;> rfl
@[simp] theorem commitFlag_draws (x : Nibble) (b : Byte) (f : Bool) (s : State) :
    (commitFlag x b f s).draws = s.draws := by unfold commitFlag; split <;> rfl
@[simp] theorem commitFlag_cfg (x : Nibble) (b : Byte) (f : Bool) (s : State) :
    (commitFlag x b f s).cfg = s.cfg := by unfold commitFlag; split <;> rfl

@[simp] theorem stepIndex_mem (x : Nibble) (s : State) : (stepIndex x s).mem = s.mem := by
  unfold stepIndex; split <;> rfl
@[simp] theorem stepIndex_v (x : Nibble) (s : State) : (stepIndex x s).v = s.v := by
  unfold stepIndex; split <;> rfl
@[simp] theorem stepIndex_i (x : Nibble) (s : State) :
    (stepIndex x s).i = if s.cfg.ldstIIncr then s.i + BitVec.ofNat 16 (x.toNat + 1) else s.i := by
  unfold stepIndex; split <;> rfl
@[simp] theorem stepIndex_pc (x : Nibble) (s : State) : (stepIndex x s).pc = s.pc := by
  unfold stepIndex; split <;> rfl
@[simp] theorem stepIndex_stack (x : Nibble) (s : State) : (stepIndex x s).stack = s.stack := by
  unfold stepIndex; split <;> rfl
@[simp] theorem stepIndex_sp (x : Nibble) (s : State) : (stepIndex x s).sp = s.sp := by
  unfold stepIndex; split <;> rfl
@[simp] theorem stepIndex_dt (x : Nibble) (s : State) : (stepIndex x s).dt = s.dt := by
  unfold stepIndex; split <;> rfl
@[simp] theorem stepIndex_st (x : Nibble) (s : State) : (stepIndex x s).st = s.st := by
  unfold stepIndex; split <;> rfl
@[simp] theorem stepIndex_key (x : Nibble) (s : State) : (stepIndex x s).key = s.key := by
  unfold stepIndex; split <;> rfl
@[simp] theorem stepIndex_fb (x : Nibble) (s : State) : (stepIndex x s).fb = s.fb := by
  unfold stepIndex; split <;> rfl
@[simp] theorem stepIndex_ir (x : Nibble) (s : State) : (stepIndex x s).ir = s.ir := by
  unfold stepIndex; split <;> rfl
@[simp] theorem stepIndex_fault (x : Nibble) (s : State) : (stepIndex x s).fault = s.fault := by
  unfold stepIndex; split <;> rfl
@[simp] theorem stepIndex_draws (x : Nibble) (s : State) : (stepIndex x s).draws = s.draws := by
  unfold stepIndex; split <;> rfl
@[simp] theorem stepIndex_cfg (x : Nibble) (s : State) : (stepIndex x s).cfg = s.cfg := by
  unfold stepIndex; split <;> rfl

@[simp] theorem loadRegs_mem (bs : List Byte) (s : State) (j : Nat) : (loadRegs s j bs).mem = s.mem := by
  induction bs generalizing s j with
  | nil => rfl
  | cons b bs ih => simp only [loadRegs, ih]; split <;> rfl
@[simp] theorem loadRegs_i (bs : List Byte) (s : State) (j : Nat) : (loadRegs s j bs).i = s.i := by
  induction bs generalizing s j with
  | nil => rfl
  | cons b bs ih => simp only [loadRegs, ih]; split <;> rfl
@[simp] theorem loadRegs_pc (bs : List Byte) (s : State) (j : Nat) : (loadRegs s j bs).pc = s.pc := by
  induction bs generalizing s j with
  | nil => rfl
  | cons b bs ih => simp only [loadRegs, ih]; split <;> rfl
@[simp] theorem loadRegs_stack (bs : List Byte) (s : State) (j : Nat) : (loadRegs s j bs).stack = s.stack := by
  induction bs generalizing s j with
  | nil => rfl
  | cons b bs ih => simp only [loadRegs, ih]; split <;> rfl
@[simp] theorem loadRegs_sp (bs : List Byte) (s : State) (j : Nat) : (loadRegs s j bs).sp = s.sp := by
  induction bs generalizing s j with
  | nil => rfl
  | cons b bs ih => simp only [loadRegs, ih]; split <;> rfl
@[simp] theorem loadRegs_dt (bs : List Byte) (s : State) (j : Nat) : (loadRegs s j bs).dt = s.dt := by
  induction bs generalizing s j with
  | nil => rfl
  | cons b bs ih => simp only [loadRegs, ih]; split <;> rfl
@[simp] theorem loadRegs_st (bs : List Byte) (s : State) (j : Nat) : (loadRegs s j bs).st = s.st := by
  induction bs generalizing s j with
  | nil => rfl
  | cons b bs ih => simp only [loadRegs, ih]; split <;> rfl
@[simp] theorem loadRegs_key (bs : List Byte) (s : State) (j : Nat) : (loadRegs s j bs).key = s.key := by
  induction bs generalizing s j with
  | nil => rfl
  | cons b bs ih => simp only [loadRegs, ih]; split <;> rfl
@[simp] theorem loadRegs_fb (bs : List Byte) (s : State) (j : Nat) : (loadRegs s j bs).fb = s.fb := by
  induction bs generalizing s j with
  | nil => rfl
  | cons b bs ih => simp only [loadRegs, ih]; split <;> rfl
@[simp] theorem loadRegs_ir (bs : List Byte) (s : State) (j : Nat) : (loadRegs s j bs).ir = s.ir := by
  induction bs generalizing s j with
  | nil => rfl
  | cons b bs ih => simp only [loadRegs, ih]; split <;> rfl
@[simp] theorem loadRegs_fault (bs : List Byte) (s : State) (j : Nat) : (loadRegs s j bs).fault = s.fault := by
  induction bs generalizing s j with
  | nil => rfl
  | cons b bs ih => simp only [loadRegs, ih]; split <;> rfl
@[simp] theorem loadRegs_draws (bs : List Byte) (s : State) (j : Nat) : (loadRegs s j bs).draws = s.draws := by
  induction bs generalizing s j with
  | nil => rfl
  | cons b bs ih => simp only [loadRegs, ih]; split <;> rfl
@[simp] theorem loadRegs_cfg (bs : List Byte) (s : State) (j : Nat) : (loadRegs s j bs).cfg = s.cfg := by
  induction bs generalizing s j with
  | nil => rfl
  | cons b bs ih => simp only [loadRegs, ih]; split <;> rfl

theorem State.reg_setReg (s : State) (x j : Nibble) (b : Byte) :
    (s.setReg x b).reg j = if j = x then b else s.reg j := by
  unfold State.reg State.setReg
  rw [Vector.getElem_set]
  by_cases h : j = x
  · simp [h]
  · have : x.toNat ≠ j.toNat := fun e => h (BitVec.eq_of_toNat_eq e.symm)
    simp [h, this]

@[simp] theorem State.reg_setReg_same (s : State) (x : Nibble) (b : Byte) :
    (s.setReg x b).reg x = b := by simp [State.reg_setReg]

theorem State.reg_setReg_other (s : State) {x j : Nibble} (b : Byte) (h : j ≠ x) :
    (s.setReg x b).reg j = s.reg j := by simp [State.reg_setReg, h]

/-- A register read sees only the register file. -/
theorem State.reg_congr {s t : State} (h : t.v = s.v) (j : Nibble) : t.reg j = s.reg j := by
  simp [State.reg, h]

/-- A byte read sees only the memory and the parameters. -/
theorem State.byteAt_congr {s t : State} (hm : t.mem = s.mem) (hc : t.cfg = s.cfg) (a : Nat) :
    t.byteAt a = s.byteAt a := by simp [State.byteAt, hm, hc]

/-- What the flag writeback leaves in each register (41_alu.md R170). -/
theorem reg_commitFlag (x : Nibble) (res : Byte) (f : Bool) (s : State) (j : Nibble) :
    (commitFlag x res f s).reg j =
      if j = vF ∧ (s.cfg.vfLast = true ∨ x ≠ vF) then flagByte f
      else if j = x then res else s.reg j := by
  unfold commitFlag
  by_cases hl : s.cfg.vfLast = true <;> by_cases hj : j = vF <;> by_cases hx : x = vF <;>
    simp_all [State.reg_setReg]
  all_goals intro h; simp_all

end Sys2Proof.Machine
end

