-- ==== Sys2Proof/Laws/Memory.lean ====
section
/-! SUPPORT. The laws of memory: read after write, the canonical form is kept, and the bytes a
sequence of writes leaves. -/

namespace Sys2Proof.Machine

theorem lookupCell_putCell (m : Memory) (a k : Nat) (b : Byte)
    (h : m.Pairwise (fun p q => p.1 < q.1)) :
    lookupCell (putCell m a b) k = if k = a then some b else lookupCell m k := by
  induction m with
  | nil => simp [putCell, lookupCell, eq_comm]
  | cons c m ih =>
    obtain ⟨ca, cb⟩ := c
    obtain ⟨hc, hm⟩ := List.pairwise_cons.mp h
    simp only [putCell]
    split
    · simp only [lookupCell, eq_comm (a := a)]
    · split
      · rename_i e
        subst e
        simp only [lookupCell, eq_comm (b := k)]
        split <;> rfl
      · simp only [lookupCell, ih hm]
        by_cases e : k = a
        · subst e; simp [Ne.symm ‹¬k = ca›]
        · simp [e]

theorem lookupCell_eq_none (m : Memory) (k : Nat) (h : ∀ p ∈ m, p.1 ≠ k) :
    lookupCell m k = none := by
  induction m with
  | nil => rfl
  | cons c m ih =>
    simp only [lookupCell]
    rw [if_neg (h c (by simp)), ih fun p hp => h p (by simp [hp])]

theorem lookupCell_eraseCell (m : Memory) (a k : Nat)
    (h : m.Pairwise (fun p q => p.1 < q.1)) :
    lookupCell (eraseCell m a) k = if k = a then none else lookupCell m k := by
  induction m with
  | nil => simp [eraseCell, lookupCell]
  | cons c m ih =>
    obtain ⟨ca, cb⟩ := c
    obtain ⟨hc, hm⟩ := List.pairwise_cons.mp h
    simp only [eraseCell]
    split
    · subst_vars
      by_cases hk : k = ca
      · subst hk
        simp only [if_true]
        exact lookupCell_eq_none m k fun p hp => Nat.ne_of_gt (hc p hp)
      · simp [lookupCell, hk, Ne.symm hk]
    · simp only [lookupCell, ih hm]
      split
      · subst_vars; simp_all
      · rfl

/-- A read after a write (20_memory.md R65). -/
theorem Memory.read_write (c : Config) (m : Memory) (a k : Nat) (b : Byte) (h : m.wf c) :
    Memory.read c (Memory.write c m a b) k = if k = a then b else Memory.read c m k := by
  unfold Memory.read Memory.write
  split
  · rw [lookupCell_eraseCell m a k h.1]
    split <;> simp_all
  · rw [lookupCell_putCell m a k b h.1]
    split <;> simp

theorem mem_putCell {m : Memory} {a : Nat} {b : Byte} {p : Host.Cell} (h : p ∈ putCell m a b) :
    p = (a, b) ∨ p ∈ m := by
  induction m with
  | nil => simp only [putCell, List.mem_singleton] at h; exact .inl h
  | cons c m ih =>
    simp only [putCell] at h
    split at h
    · simpa using h
    · split at h
      · simp only [List.mem_cons] at h ⊢
        exact h.imp id Or.inr
      · simp only [List.mem_cons] at h ⊢
        rcases h with h | h
        · exact .inr (.inl h)
        · exact (ih h).imp id Or.inr

theorem mem_eraseCell {m : Memory} {a : Nat} {p : Host.Cell} (h : p ∈ eraseCell m a) : p ∈ m := by
  induction m with
  | nil => simp [eraseCell] at h
  | cons c m ih =>
    simp only [eraseCell] at h
    split at h
    · exact List.mem_cons_of_mem _ h
    · simp only [List.mem_cons] at h ⊢
      exact h.imp id ih

theorem pairwise_putCell (m : Memory) (a : Nat) (b : Byte)
    (h : m.Pairwise (fun p q => p.1 < q.1)) :
    (putCell m a b).Pairwise (fun p q => p.1 < q.1) := by
  induction m with
  | nil => simp [putCell]
  | cons c m ih =>
    obtain ⟨ca, cb⟩ := c
    obtain ⟨hc, hm⟩ := List.pairwise_cons.mp h
    simp only [putCell]
    split
    · rename_i hlt
      refine List.pairwise_cons.mpr ⟨fun p hp => ?_, h⟩
      rcases List.mem_cons.mp hp with rfl | hp
      · exact hlt
      · exact Nat.lt_trans hlt (hc p hp)
    · split
      · subst_vars; exact List.pairwise_cons.mpr ⟨hc, hm⟩
      · refine List.pairwise_cons.mpr ⟨fun p hp => ?_, ih hm⟩
        rcases mem_putCell hp with rfl | hp
        · simp only; omega
        · exact hc p hp

theorem pairwise_eraseCell (m : Memory) (a : Nat) (h : m.Pairwise (fun p q => p.1 < q.1)) :
    (eraseCell m a).Pairwise (fun p q => p.1 < q.1) := by
  induction m with
  | nil => simp [eraseCell]
  | cons c m ih =>
    obtain ⟨hc, hm⟩ := List.pairwise_cons.mp h
    simp only [eraseCell]
    split
    · exact hm
    · exact List.pairwise_cons.mpr ⟨fun p hp => hc p (mem_eraseCell hp), ih hm⟩

/-- A cell that is erased is gone. -/
theorem ne_of_mem_eraseCell {m : Memory} {a : Nat} (h : m.Pairwise (fun p q => p.1 < q.1))
    {p : Host.Cell} (hp : p ∈ eraseCell m a) : p.1 ≠ a := by
  induction m with
  | nil => simp [eraseCell] at hp
  | cons c m ih =>
    obtain ⟨hc, hm⟩ := List.pairwise_cons.mp h
    simp only [eraseCell] at hp
    split at hp
    · rename_i e; exact e ▸ Nat.ne_of_gt (hc p hp)
    · rename_i e
      rcases List.mem_cons.mp hp with rfl | hp
      · exact e
      · exact ih hm hp

/-- A write below 4096 keeps the canonical form. -/
theorem Memory.wf_write (c : Config) (m : Memory) (a : Nat) (b : Byte) (h : m.wf c)
    (ha : a < 4096) : (Memory.write c m a b).wf c := by
  unfold Memory.write
  split
  · exact ⟨pairwise_eraseCell m a h.1, fun p hp => h.2 p (mem_eraseCell hp)⟩
  · rename_i hb
    refine ⟨pairwise_putCell m a b h.1, fun p hp => ?_⟩
    rcases mem_putCell hp with rfl | hp
    · exact ⟨ha, hb⟩
    · exact h.2 p hp

/-- Writes below 4096 keep the canonical form. -/
theorem Memory.wf_writeMany (c : Config) (bs : List Byte) (m : Memory) (a : Nat) (h : m.wf c)
    (ha : a + bs.length ≤ 4096) : (Memory.writeMany c m a bs).wf c := by
  induction bs generalizing m a with
  | nil => exact h
  | cons b bs ih =>
    simp only [List.length_cons] at ha
    exact ih _ _ (Memory.wf_write c m a b h (by omega)) (by omega)

/-- What every address reads as after consecutive writes below 4096. -/
theorem Memory.read_writeMany (c : Config) (bs : List Byte) (m : Memory) (a k : Nat) (h : m.wf c)
    (ha : a + bs.length ≤ 4096) :
    Memory.read c (Memory.writeMany c m a bs) k =
      if a ≤ k ∧ k < a + bs.length then bs.getD (k - a) 0 else Memory.read c m k := by
  induction bs generalizing m a with
  | nil => simp only [writeMany, List.length_nil]; split <;> [omega; rfl]
  | cons b bs ih =>
    simp only [List.length_cons] at ha
    simp only [writeMany, List.length_cons]
    rw [ih _ _ (Memory.wf_write c m a b h (by omega)) (by omega), Memory.read_write c m a k b h]
    by_cases hk : k = a
    · subst hk; simp
    · by_cases hr : a + 1 ≤ k ∧ k < a + 1 + bs.length
      · have : k - a = (k - (a + 1)) + 1 := by omega
        rw [if_pos hr, if_pos (by omega), this, List.getD_cons_succ]
      · rw [if_neg hr, if_neg hk, if_neg (by omega)]

@[simp] theorem Memory.length_readMany (c : Config) (m : Memory) (a n : Nat) :
    (Memory.readMany c m a n).length = n := by
  induction n generalizing a with
  | zero => rfl
  | succ n ih => simp [readMany, ih]

/-- The j-th byte of a read of several. -/
theorem Memory.getD_readMany (c : Config) (m : Memory) (a n j : Nat) (h : j < n) :
    (Memory.readMany c m a n).getD j 0 = Memory.read c m (a + j) := by
  induction n generalizing a j with
  | zero => omega
  | succ n ih =>
    cases j with
    | zero => simp [readMany]
    | succ j =>
      rw [readMany, List.getD_cons_succ, ih _ _ (by omega)]
      congr 1; omega

/-- Memory at reset is in canonical form. -/
theorem Memory.wf_nil (c : Config) : Memory.wf c [] := by simp [Memory.wf]

/-- A byte read after a store (20_memory.md R65), in the state's terms. -/
theorem State.byteAt_storeBytes (s : State) (a k : Nat) (bs : List Byte) (h : s.mem.wf s.cfg)
    (ha : a + bs.length ≤ 4096) :
    (s.storeBytes a bs).byteAt k =
      if a ≤ k ∧ k < a + bs.length then bs.getD (k - a) 0 else s.byteAt k :=
  Memory.read_writeMany s.cfg bs s.mem a k h ha

end Sys2Proof.Machine
end

