-- ==== Sys2Proof/Laws/Ops.lean ====
section
/-! SUPPORT. One lemma per shared operation: everything it can answer. Provers cite these instead of
unfolding. -/

namespace Sys2Proof.Machine

/-- `checked` raises DATA_BOUNDS exactly when the range leaves memory (20_memory.md R63). -/
theorem checked_inside {lo hi : Nat} (s : State) (k : Result) (h : hi ≤ 0xFFF) :
    checked lo hi s k = k := by unfold checked; rw [if_neg (by omega)]

theorem checked_outside {lo hi : Nat} (s : State) (k : Result) (h : hi > 0xFFF) :
    checked lo hi s k =
      .next (takeFault .dataBounds (s.pc - 2) (some s.ir) (firstOutside lo) s) := by
  unfold checked raise; rw [if_pos h]

/-- The recorded address is the exact maximum: `I` and `PC` fit in 16 bits. -/
theorem firstOutside_toNat {lo : Nat} (h : lo < 65536) : (firstOutside lo).toNat = max lo 0x1000 := by
  unfold firstOutside; rw [BitVec.toNat_ofNat]; omega

theorem push_room (p : Word) (s : State) (k : State → Result) (h : s.sp.val < 16) :
    push p s k =
      k { s with stack := s.stack.set s.sp.val p, sp := ⟨s.sp.val + 1, by omega⟩ } := by
  unfold push; rw [dif_pos h]

theorem push_full (p : Word) (s : State) (k : State → Result) (h : s.sp.val = 16) :
    push p s k = .next (takeFault .stackOverflow (s.pc - 2) (some s.ir) 16 s) := by
  unfold push raise; rw [dif_neg (by omega)]

theorem pop_some (s : State) (k : Word → State → Result) (h : 0 < s.sp.val) :
    pop s k = k (s.stack[s.sp.val - 1]) { s with sp := ⟨s.sp.val - 1, by omega⟩ } := by
  unfold pop; rw [dif_pos h]

theorem pop_empty (s : State) (k : Word → State → Result) (h : s.sp.val = 0) :
    pop s k = .next (takeFault .stackUnderflow (s.pc - 2) (some s.ir) 0 s) := by
  unfold pop raise; rw [dif_neg (by omega)]

theorem keyIndexed_in (x : Nibble) (s : State) (k : Nibble → Result) (h : (s.reg x).toNat ≤ 15) :
    keyIndexed x s k = k ((s.reg x).setWidth 4) := by
  unfold keyIndexed; rw [if_neg (by omega)]

theorem keyIndexed_out (x : Nibble) (s : State) (k : Nibble → Result) (h : (s.reg x).toNat > 15) :
    keyIndexed x s k =
      .next (takeFault .keyRange (s.pc - 2) (some s.ir) (zext16 (s.reg x)) s) := by
  unfold keyIndexed raise; rw [if_pos h]

/-- What a run of consecutive register writes leaves (42_index_memory.md R215). -/
theorem reg_loadRegs (bs : List Byte) (s : State) (j : Nat) (k : Nibble) (h : j + bs.length ≤ 16) :
    (loadRegs s j bs).reg k =
      if j ≤ k.toNat ∧ k.toNat < j + bs.length then bs.getD (k.toNat - j) 0 else s.reg k := by
  induction bs generalizing s j with
  | nil => simp only [loadRegs, List.length_nil]; split <;> [omega; rfl]
  | cons b bs ih =>
    simp only [List.length_cons] at h
    simp only [loadRegs, List.length_cons]
    rw [ih _ _ (by omega), if_pos (by omega : j < 16), State.reg_setReg]
    have hj : (k = BitVec.ofNat 4 j) ↔ k.toNat = j := by
      rw [← BitVec.toNat_inj, BitVec.toNat_ofNat, Nat.mod_eq_of_lt (by omega)]
    by_cases hk : k.toNat = j
    · rw [if_neg (by omega), if_pos (hj.mpr hk), if_pos (by omega), hk]; simp
    · by_cases hr : j + 1 ≤ k.toNat ∧ k.toNat < j + 1 + bs.length
      · have : k.toNat - j = (k.toNat - (j + 1)) + 1 := by omega
        rw [if_pos hr, if_pos (by omega), this, List.getD_cons_succ]
      · rw [if_neg hr, if_neg (fun e => hk (hj.mp e)), if_neg (by omega)]

/-- The bytes Fx55 stores (42_index_memory.md R214). -/
theorem length_regsUpTo (x : Nibble) (s : State) : (regsUpTo x s).length = x.toNat + 1 := by
  have := x.isLt
  simp only [regsUpTo, List.length_take, Vector.length_toList]; omega

theorem getD_regsUpTo (x k : Nibble) (s : State) (h : k.toNat ≤ x.toNat) :
    (regsUpTo x s).getD k.toNat 0 = s.reg k := by
  have := x.isLt
  have h16 := k.isLt
  simp [regsUpTo, State.reg, List.getD, show k.toNat < x.toNat + 1 by omega,
    Vector.getElem?_eq_getElem (xs := s.v) (i := k.toNat) h16]

/-- A pixel after one pixel is written (10_state.md R35). -/
theorem pixel_setPixel (fb : FrameBuffer) (c c' : Fin 64) (r r' : Fin 32) (b : Bool) :
    pixel (setPixel fb c r b) c' r' = if c' = c ∧ r' = r then b else pixel fb c' r' := by
  unfold pixel setPixel
  by_cases hr : r' = r
  · subst hr
    by_cases hc : c' = c
    · subst hc; simp
    · have : (c : Nat) ≠ c' := fun e => hc (Fin.ext e.symm)
      simp [hc, this]
  · have : (r : Nat) ≠ r' := fun e => hr (Fin.ext e.symm)
    simp [hr, this]

/-- Two framebuffers with the same pixels are equal. -/
theorem fb_ext {a b : FrameBuffer} (h : ∀ c r, pixel a c r = pixel b c r) : a = b := by
  apply Vector.ext
  intro r hr
  apply Vector.ext
  intro c hc
  exact h ⟨c, hc⟩ ⟨r, hr⟩

@[simp] theorem pixel_clearScreen (c : Fin 64) (r : Fin 32) : pixel clearScreen c r = false := by
  simp [pixel, clearScreen]

/-- The key LD Vx, K reports is pressed and the least (44_keys_timers.md R266). -/
theorem leastPressed_eq_none (s : State) : s.leastPressed = none ↔ ∀ k, s.pressed k = false := by
  simp only [State.leastPressed, List.find?_eq_none, List.mem_map, List.mem_range]
  constructor
  · intro h k
    have := h k ⟨k.toNat, k.isLt, by simp⟩
    simpa using this
  · rintro h k -
    simp [h k]

/-- `commit` answers `next` with the whole cycle's state or with the old state and FAULT set. -/
theorem commit_next_run (s0 t : State) (h : t.fault = .run) : commit s0 (.next t) = .next t := by
  simp [commit, h]

theorem commit_next_faulted (s0 t : State) (r : FaultRecord) (h : t.fault = .faulted r) :
    commit s0 (.next t) = .next { s0 with fault := .faulted r } := by
  simp [commit, h]

/-- A running core's cycle below the fetch bound is the decoded instruction (30_encoding.md R110). -/
theorem cycle_run (s : State) (hf : s.fault = .run) (hp : s.pc.toNat ≤ 0xFFE) :
    cycle s = commit s (exec (decodeWord (s.wordAt s.pc.toNat)) (advance (s.wordAt s.pc.toNat) s)) := by
  simp [cycle, hf, fetch, show ¬ s.pc.toNat > 0xFFE by omega]

theorem cycle_fetchFault (s : State) (hf : s.fault = .run) (hp : s.pc.toNat > 0xFFE) :
    cycle s = .next (takeFault .fetchBounds s.pc none (firstOutside s.pc.toNat) s) := by
  simp [cycle, hf, fetch, hp]

theorem cycle_faulted (s : State) (r : FaultRecord) (hf : s.fault = .faulted r) :
    cycle s = .next s := by simp [cycle, hf]

theorem wordOfBytes_hi_lo (w : Word) : wordOfBytes (hiByte w) (loByte w) = w := by
  apply BitVec.eq_of_toNat_eq
  have := w.isLt
  simp only [wordOfBytes, hiByte, loByte, BitVec.toNat_append, BitVec.extractLsb'_toNat,
    Nat.shiftRight_eq_div_pow]
  rw [← Nat.shiftLeft_add_eq_or_of_lt (by omega), Nat.shiftLeft_eq]
  omega

/-- `withFetchWord` places the word where the next cycle fetches it (log 11). -/
theorem fetch_placeWord (s : State) (w : Word) (h : s.mem.wf s.cfg) :
    fetch (placeWord w s) = some w := by
  have hpc : (runnable s).pc.toNat ≤ 0xFFE := by
    simp only [runnable]; split <;> simp_all
  have hb := State.byteAt_storeBytes (runnable s) (runnable s).pc.toNat
  have hm : (runnable s).mem.wf (runnable s).cfg := h
  unfold fetch placeWord State.wordAt
  rw [State.storeBytes_pc, if_neg (by omega), hb _ _ hm (by simp; omega), hb _ _ hm (by simp; omega)]
  simp [wordOfBytes_hi_lo]

theorem fault_placeWord (s : State) (w : Word) : (placeWord w s).fault = .run := rfl

end Sys2Proof.Machine
end

