-- ==== Sys2Proof/Laws/Display.lean ====
section
/-! SUPPORT. What drawing does to every pixel and to the collision flag (43_display.md R240, R242,
R244): the loops toggle each hit pixel once. -/

namespace Sys2Proof.Machine

theorem pixel_xorPixel (p : FrameBuffer × Bool) (c c' : Fin 64) (r r' : Fin 32) :
    pixel (xorPixel p c r).1 c' r' =
      if c' = c ∧ r' = r then !pixel p.1 c r else pixel p.1 c' r' := by
  simp [xorPixel, pixel_setPixel]

theorem flag_xorPixel (p : FrameBuffer × Bool) (c : Fin 64) (r : Fin 32) :
    (xorPixel p c r).2 = (p.2 || pixel p.1 c r) := rfl

/-- A set bit of the sprite row `b`, among the column offsets of a list, lands on column `c`. -/
def HitsIn (b : Byte) (cx : Nat) (cols : List Nat) (c : Fin 64) : Prop :=
  ∃ col ∈ cols, b.getLsbD (7 - col) = true ∧ c = wrapCol (cx + col)

theorem hitsIn_cons (b : Byte) (cx col : Nat) (cols : List Nat) (c : Fin 64) :
    HitsIn b cx (col :: cols) c ↔
      (b.getLsbD (7 - col) = true ∧ c = wrapCol (cx + col)) ∨ HitsIn b cx cols c := by
  simp [HitsIn]

/-- Column offsets below 8 land on different columns. -/
theorem not_hitsIn_other {b : Byte} {cx col : Nat} {cols : List Nat} (h8 : col < 8)
    (hc : ∀ j ∈ cols, j < 8 ∧ j ≠ col) : ¬ HitsIn b cx cols (wrapCol (cx + col)) := by
  rintro ⟨j, hj, -, e⟩
  obtain ⟨h1, h2⟩ := hc j hj
  have := congrArg Fin.val e
  simp only [wrapCol] at this
  omega

/-- One sprite row toggles exactly the pixels it hits. -/
theorem pixel_drawRow (b : Byte) (cx : Nat) (r : Fin 32) (cols : List Nat) (p : FrameBuffer × Bool)
    (hn : cols.Nodup) (h8 : ∀ j ∈ cols, j < 8) (c' : Fin 64) (r' : Fin 32) :
    (pixel (drawRow b cx r cols p).1 c' r' ≠ pixel p.1 c' r' ↔ r' = r ∧ HitsIn b cx cols c') ∧
    ((drawRow b cx r cols p).2 = true ↔
      p.2 = true ∨ ∃ c, HitsIn b cx cols c ∧ pixel p.1 c r = true) := by
  induction cols generalizing p with
  | nil => simp [drawRow, HitsIn]
  | cons col cols ih =>
    obtain ⟨hc, hn⟩ := List.nodup_cons.mp hn
    have hcol : col < 8 := h8 col (by simp)
    have hcols : ∀ j ∈ cols, j < 8 := fun j hj => h8 j (by simp [hj])
    have hne := not_hitsIn_other (b := b) (cx := cx) hcol
      (cols := cols) fun j hj => ⟨hcols j hj, fun e => hc (e ▸ hj)⟩
    simp only [drawRow]
    by_cases hb : b.getLsbD (7 - col) = true
    · rw [if_pos hb]
      obtain ⟨ih1, ih2⟩ := ih (xorPixel p (wrapCol (cx + col)) r) hn hcols
      constructor
      · rw [hitsIn_cons]
        rw [pixel_xorPixel] at ih1
        by_cases hh : c' = wrapCol (cx + col) ∧ r' = r
        · obtain ⟨rfl, rfl⟩ := hh
          simp only [and_self, if_true, hne, and_false, iff_false, ne_eq, not_not] at ih1
          simp [ih1, hb]
        · rw [if_neg hh] at ih1
          rw [ih1]
          constructor
          · rintro ⟨h1, h2⟩; exact ⟨h1, .inr h2⟩
          · rintro ⟨h1, ⟨-, h2⟩ | h2⟩
            · exact absurd ⟨h2, h1⟩ hh
            · exact ⟨h1, h2⟩
      · rw [ih2, flag_xorPixel]
        simp only [pixel_xorPixel, and_true, hitsIn_cons, hb, true_and, Bool.or_eq_true]
        constructor
        · rintro ((h | h) | ⟨c, h1, h2⟩)
          · exact .inl h
          · exact .inr ⟨_, .inl rfl, h⟩
          · have : c ≠ wrapCol (cx + col) := fun e => hne (e ▸ h1)
            rw [if_neg this] at h2
            exact .inr ⟨c, .inr h1, h2⟩
        · rintro (h | ⟨c, rfl | h1, h2⟩)
          · exact .inl (.inl h)
          · exact .inl (.inr h2)
          · have : c ≠ wrapCol (cx + col) := fun e => hne (e ▸ h1)
            exact .inr ⟨c, h1, by rw [if_neg this]; exact h2⟩
    · rw [if_neg hb]
      obtain ⟨ih1, ih2⟩ := ih p hn hcols
      simp only [hitsIn_cons, hb, Bool.false_eq_true, false_and, false_or]
      exact ⟨ih1, ih2⟩

/-- A set bit of the sprite rows, the first at row offset `row`, lands on pixel `(c, r)`. -/
def SpriteHitsFrom (cx cy row : Nat) (bs : List Byte) (c : Fin 64) (r : Fin 32) : Prop :=
  ∃ k col, k < bs.length ∧ col < 8 ∧ (bs.getD k 0).getLsbD (7 - col) = true ∧
    c = wrapCol (cx + col) ∧ r = wrapRow (cy + (row + k))

theorem spriteHitsFrom_cons (cx cy row : Nat) (b : Byte) (bs : List Byte) (c : Fin 64) (r : Fin 32) :
    SpriteHitsFrom cx cy row (b :: bs) c r ↔
      (r = wrapRow (cy + row) ∧ HitsIn b cx [0, 1, 2, 3, 4, 5, 6, 7] c) ∨
        SpriteHitsFrom cx cy (row + 1) bs c r := by
  have h8 : ∀ col, col ∈ [0, 1, 2, 3, 4, 5, 6, 7] ↔ col < 8 := by intro col; simp; omega
  constructor
  · rintro ⟨k, col, hk, hc, hb, e1, e2⟩
    cases k with
    | zero => exact .inl ⟨e2, col, (h8 col).mpr hc, by simpa using hb, e1⟩
    | succ k =>
      refine .inr ⟨k, col, by simpa using hk, hc, by simpa using hb, e1, ?_⟩
      rw [e2]; congr 2; omega
  · rintro (⟨e2, col, hc, hb, e1⟩ | ⟨k, col, hk, hc, hb, e1, e2⟩)
    · exact ⟨0, col, by simp, (h8 col).mp hc, by simpa using hb, e1, e2⟩
    · refine ⟨k + 1, col, by simpa using hk, hc, by simpa using hb, e1, ?_⟩
      rw [e2]; congr 2; omega

/-- Row offsets within 32 land on different rows. -/
theorem not_spriteHitsFrom_row {cx cy row : Nat} {bs : List Byte} (h : bs.length < 32) (c : Fin 64) :
    ¬ SpriteHitsFrom cx cy (row + 1) bs c (wrapRow (cy + row)) := by
  rintro ⟨k, -, hk, -, -, -, e⟩
  have := congrArg Fin.val e
  simp only [wrapRow] at this
  omega

/-- A sprite of at most 32 rows toggles exactly the pixels it hits, and the flag is set exactly when
one of them was on (43_display.md R242, R244). -/
theorem pixel_drawRows (cx cy row : Nat) (bs : List Byte) (p : FrameBuffer × Bool)
    (h : bs.length ≤ 32) :
    (∀ c r, pixel (drawRows cx cy row bs p).1 c r ≠ pixel p.1 c r ↔
      SpriteHitsFrom cx cy row bs c r) ∧
    ((drawRows cx cy row bs p).2 = true ↔
      p.2 = true ∨ ∃ c r, SpriteHitsFrom cx cy row bs c r ∧ pixel p.1 c r = true) := by
  induction bs generalizing row p with
  | nil => simp [drawRows, SpriteHitsFrom]
  | cons b bs ih =>
    simp only [List.length_cons] at h
    have hd := pixel_drawRow b cx (wrapRow (cy + row)) [0, 1, 2, 3, 4, 5, 6, 7] p (by decide)
      (by decide)
    obtain ⟨ih1, ih2⟩ := ih (row + 1)
      (drawRow b cx (wrapRow (cy + row)) [0, 1, 2, 3, 4, 5, 6, 7] p) (by omega)
    have hrow := fun c => not_spriteHitsFrom_row (cx := cx) (cy := cy) (row := row)
      (bs := bs) (by omega) c
    have hsame : ∀ c r, SpriteHitsFrom cx cy (row + 1) bs c r →
        pixel (drawRow b cx (wrapRow (cy + row)) [0, 1, 2, 3, 4, 5, 6, 7] p).1 c r = pixel p.1 c r := by
      intro c r hs
      by_contra hne
      obtain ⟨rfl, -⟩ := (hd c r).1.mp hne
      exact hrow c hs
    simp only [drawRows]
    constructor
    · intro c r
      rw [spriteHitsFrom_cons]
      by_cases hs : SpriteHitsFrom cx cy (row + 1) bs c r
      · rw [← hsame c r hs, ih1 c r]; simp [hs]
      · have e := not_not.mp (mt (ih1 c r).mp hs)
        rw [e, (hd c r).1]; simp [hs]
    · rw [ih2, (hd 0 0).2]
      constructor
      · rintro ((h | ⟨c, h1, h2⟩) | ⟨c, r, h1, h2⟩)
        · exact .inl h
        · exact .inr ⟨c, _, (spriteHitsFrom_cons ..).mpr (.inl ⟨rfl, h1⟩), h2⟩
        · exact .inr ⟨c, r, (spriteHitsFrom_cons ..).mpr (.inr h1), hsame c r h1 ▸ h2⟩
      · rintro (h | ⟨c, r, h1, h2⟩)
        · exact .inl (.inl h)
        · rcases (spriteHitsFrom_cons ..).mp h1 with ⟨rfl, h3⟩ | h3
          · exact .inl (.inr ⟨c, h3, h2⟩)
          · exact .inr ⟨c, r, h3, (hsame c r h3).symm ▸ h2⟩

end Sys2Proof.Machine
end

