-- ==== Sys2Proof/Laws/Exec.lean ====
section
/-! SUPPORT. What `exec` answers for the instructions that check something first, one equation per
outcome; the other instructions' equations hold by unfolding. -/

namespace Sys2Proof.Machine

theorem exec_call_room (nnn : Addr12) (s : State) (h : s.sp.val < 16) :
    exec (.call nnn) s =
      .next { s with
        pc := zext16 nnn
        stack := s.stack.set s.sp.val s.pc
        sp := ⟨s.sp.val + 1, by omega⟩ } := by
  show execCall nnn s = _; unfold execCall; rw [push_room _ _ _ h]; rfl

theorem exec_call_full (nnn : Addr12) (s : State) (h : s.sp.val = 16) :
    exec (.call nnn) s = .next (takeFault .stackOverflow (s.pc - 2) (some s.ir) 16 s) := by
  show execCall nnn s = _; unfold execCall; rw [push_full _ _ _ h]

theorem exec_ret_some (s : State) (h : 0 < s.sp.val) :
    exec .ret s =
      .next { s with pc := s.stack[s.sp.val - 1], sp := ⟨s.sp.val - 1, by omega⟩ } := by
  show execRet s = _; unfold execRet; rw [pop_some _ _ h]; rfl

theorem exec_ret_empty (s : State) (h : s.sp.val = 0) :
    exec .ret s = .next (takeFault .stackUnderflow (s.pc - 2) (some s.ir) 0 s) := by
  show execRet s = _; unfold execRet; rw [pop_empty _ _ h]

theorem exec_ldB_inside (x : Nibble) (s : State) (h : indexAddr s + 2 ≤ 0xFFF) :
    exec (.ldB x) s = .next (s.storeBytes (indexAddr s) (bcdDigits (s.reg x))) :=
  checked_inside s _ h

theorem exec_ldMemVx_inside (x : Nibble) (s : State) (h : indexLast x s ≤ 0xFFF) :
    exec (.ldMemVx x) s = .next (stepIndex x (s.storeBytes (indexAddr s) (regsUpTo x s))) :=
  checked_inside s _ h

theorem exec_ldVxMem_inside (x : Nibble) (s : State) (h : indexLast x s ≤ 0xFFF) :
    exec (.ldVxMem x) s =
      .next (stepIndex x (loadRegs s 0 (s.bytesAt (indexAddr s) (x.toNat + 1)))) :=
  checked_inside s _ h

theorem exec_ldB_outside (x : Nibble) (s : State) (h : indexAddr s + 2 > 0xFFF) :
    exec (.ldB x) s =
      .next (takeFault .dataBounds (s.pc - 2) (some s.ir) (firstOutside (indexAddr s)) s) :=
  checked_outside s _ h

theorem exec_ldMemVx_outside (x : Nibble) (s : State) (h : indexLast x s > 0xFFF) :
    exec (.ldMemVx x) s =
      .next (takeFault .dataBounds (s.pc - 2) (some s.ir) (firstOutside (indexAddr s)) s) :=
  checked_outside s _ h

theorem exec_ldVxMem_outside (x : Nibble) (s : State) (h : indexLast x s > 0xFFF) :
    exec (.ldVxMem x) s =
      .next (takeFault .dataBounds (s.pc - 2) (some s.ir) (firstOutside (indexAddr s)) s) :=
  checked_outside s _ h

theorem exec_drw_inside (x y n : Nibble) (s : State)
    (h : n.toNat = 0 ∨ indexAddr s + n.toNat - 1 ≤ 0xFFF) :
    exec (.drw x y n) s =
      .next ({ s with fb := (spriteDrawn x y n s).1 }.setReg vF (flagByte (spriteDrawn x y n s).2)) := by
  show execDrw x y n s = _
  unfold execDrw
  by_cases h0 : n.toNat = 0
  · simp only [if_pos h0]
  · simp only [if_neg h0]; exact checked_inside s _ (h.resolve_left h0)

theorem exec_drw_outside (x y n : Nibble) (s : State) (h0 : n.toNat ≠ 0)
    (h : indexAddr s + n.toNat - 1 > 0xFFF) :
    exec (.drw x y n) s =
      .next (takeFault .dataBounds (s.pc - 2) (some s.ir) (firstOutside (indexAddr s)) s) := by
  show execDrw x y n s = _
  unfold execDrw
  simp only [if_neg h0]; exact checked_outside s _ h

theorem exec_skp_in (x : Nibble) (s : State) (h : (s.reg x).toNat ≤ 15) :
    exec (.skp x) s = .next (skipIf (s.pressed ((s.reg x).setWidth 4)) s) :=
  by show execSkp x s = _; unfold execSkp; rw [keyIndexed_in _ _ _ h]

theorem exec_sknp_in (x : Nibble) (s : State) (h : (s.reg x).toNat ≤ 15) :
    exec (.sknp x) s = .next (skipIf (!s.pressed ((s.reg x).setWidth 4)) s) :=
  by show execSknp x s = _; unfold execSknp; rw [keyIndexed_in _ _ _ h]

theorem exec_skp_out (x : Nibble) (s : State) (h : (s.reg x).toNat > 15) :
    exec (.skp x) s = .next (takeFault .keyRange (s.pc - 2) (some s.ir) (zext16 (s.reg x)) s) :=
  by show execSkp x s = _; unfold execSkp; rw [keyIndexed_out _ _ _ h]

theorem exec_sknp_out (x : Nibble) (s : State) (h : (s.reg x).toNat > 15) :
    exec (.sknp x) s = .next (takeFault .keyRange (s.pc - 2) (some s.ir) (zext16 (s.reg x)) s) :=
  by show execSknp x s = _; unfold execSknp; rw [keyIndexed_out _ _ _ h]

theorem exec_ldVxK_none (x : Nibble) (s : State) (h : s.leastPressed = none) :
    exec (.ldVxK x) s = .next (s.setPc (s.pc - 2)) := by
  show execLdVxK x s = _
  simp [execLdVxK, h]

theorem exec_ldVxK_some (x k : Nibble) (s : State) (h : s.leastPressed = some k) :
    exec (.ldVxK x) s =
      .next (if s.cfg.fx0aClearKey then (s.setReg x (k.setWidth 8)).releaseKey k
        else s.setReg x (k.setWidth 8)) := by
  show execLdVxK x s = _
  simp [execLdVxK, h]

end Sys2Proof.Machine
end

