-- ==== Sys2Proof/Laws/PerInstr.lean ====
section
/-! SUPPORT. The family EncodedInRow: the word of every instruction has the fixed bits of its row of
spec/opcode_table.json (30_encoding.md R101). -/

namespace Sys2Proof.Laws.EncodedInRow

/-- The encoded word fits the instruction's row. -/
def Statement (i : Instr) : Prop :=
  ∀ r, (namedRows ++ familyRows)[i.row]? = some r → r.fits (encode i) = true

/-- A word fits a row when their bits agree under the mask. -/
theorem fits_of_bits {i : Instr} {r : OpcodeRow} (hr : (namedRows ++ familyRows)[i.row]? = some r)
    (h : ∀ k, k < 16 → ((encode i).getLsbD k && r.mask.getLsbD k) = r.bits.getLsbD k) :
    Statement i := by
  intro r' hr'
  obtain rfl := Option.some.inj (hr.symm.trans hr')
  simp only [OpcodeRow.fits, beq_iff_eq]
  exact BitVec.eq_of_getLsbD_eq fun k hk => by rw [BitVec.getLsbD_and]; exact h k hk

theorem cls : Statement (.cls) :=
  fits_of_bits rfl (by intro k hk; interval_cases k <;> rfl)

theorem ret : Statement (.ret) :=
  fits_of_bits rfl (by intro k hk; interval_cases k <;> rfl)

theorem jp (nnn : Addr12) : Statement (.jp nnn) :=
  fits_of_bits rfl (by intro k hk; rw [encode, getLsbD_packNNN]; interval_cases k <;> simp)

theorem call (nnn : Addr12) : Statement (.call nnn) :=
  fits_of_bits rfl (by intro k hk; rw [encode, getLsbD_packNNN]; interval_cases k <;> simp)

theorem seImm (x : Nibble) (kk : Byte) : Statement (.seImm x kk) :=
  fits_of_bits rfl (by intro k hk; rw [encode, getLsbD_packXKK]; interval_cases k <;> simp)

theorem sneImm (x : Nibble) (kk : Byte) : Statement (.sneImm x kk) :=
  fits_of_bits rfl (by intro k hk; rw [encode, getLsbD_packXKK]; interval_cases k <;> simp)

theorem seReg (x y : Nibble) : Statement (.seReg x y) :=
  fits_of_bits rfl (by intro k hk; rw [encode, getLsbD_packXYN]; interval_cases k <;> simp)

theorem ldImm (x : Nibble) (kk : Byte) : Statement (.ldImm x kk) :=
  fits_of_bits rfl (by intro k hk; rw [encode, getLsbD_packXKK]; interval_cases k <;> simp)

theorem addImm (x : Nibble) (kk : Byte) : Statement (.addImm x kk) :=
  fits_of_bits rfl (by intro k hk; rw [encode, getLsbD_packXKK]; interval_cases k <;> simp)

theorem ldReg (x y : Nibble) : Statement (.ldReg x y) :=
  fits_of_bits rfl (by intro k hk; rw [encode, getLsbD_packXYN]; interval_cases k <;> simp)

theorem orReg (x y : Nibble) : Statement (.orReg x y) :=
  fits_of_bits rfl (by intro k hk; rw [encode, getLsbD_packXYN]; interval_cases k <;> simp)

theorem andReg (x y : Nibble) : Statement (.andReg x y) :=
  fits_of_bits rfl (by intro k hk; rw [encode, getLsbD_packXYN]; interval_cases k <;> simp)

theorem xorReg (x y : Nibble) : Statement (.xorReg x y) :=
  fits_of_bits rfl (by intro k hk; rw [encode, getLsbD_packXYN]; interval_cases k <;> simp)

theorem addReg (x y : Nibble) : Statement (.addReg x y) :=
  fits_of_bits rfl (by intro k hk; rw [encode, getLsbD_packXYN]; interval_cases k <;> simp)

theorem subReg (x y : Nibble) : Statement (.subReg x y) :=
  fits_of_bits rfl (by intro k hk; rw [encode, getLsbD_packXYN]; interval_cases k <;> simp)

theorem shr (x y : Nibble) : Statement (.shr x y) :=
  fits_of_bits rfl (by intro k hk; rw [encode, getLsbD_packXYN]; interval_cases k <;> simp)

theorem subnReg (x y : Nibble) : Statement (.subnReg x y) :=
  fits_of_bits rfl (by intro k hk; rw [encode, getLsbD_packXYN]; interval_cases k <;> simp)

theorem shl (x y : Nibble) : Statement (.shl x y) :=
  fits_of_bits rfl (by intro k hk; rw [encode, getLsbD_packXYN]; interval_cases k <;> simp)

theorem sneReg (x y : Nibble) : Statement (.sneReg x y) :=
  fits_of_bits rfl (by intro k hk; rw [encode, getLsbD_packXYN]; interval_cases k <;> simp)

theorem ldI (nnn : Addr12) : Statement (.ldI nnn) :=
  fits_of_bits rfl (by intro k hk; rw [encode, getLsbD_packNNN]; interval_cases k <;> simp)

theorem jpV0 (nnn : Addr12) : Statement (.jpV0 nnn) :=
  fits_of_bits rfl (by intro k hk; rw [encode, getLsbD_packNNN]; interval_cases k <;> simp)

theorem rnd (x : Nibble) (kk : Byte) : Statement (.rnd x kk) :=
  fits_of_bits rfl (by intro k hk; rw [encode, getLsbD_packXKK]; interval_cases k <;> simp)

theorem drw (x y n : Nibble) : Statement (.drw x y n) :=
  fits_of_bits rfl (by intro k hk; rw [encode, getLsbD_packXYN]; interval_cases k <;> simp)

theorem skp (x : Nibble) : Statement (.skp x) :=
  fits_of_bits rfl (by intro k hk; rw [encode, getLsbD_packXKK]; interval_cases k <;> simp)

theorem sknp (x : Nibble) : Statement (.sknp x) :=
  fits_of_bits rfl (by intro k hk; rw [encode, getLsbD_packXKK]; interval_cases k <;> simp)

theorem ldVxDt (x : Nibble) : Statement (.ldVxDt x) :=
  fits_of_bits rfl (by intro k hk; rw [encode, getLsbD_packXKK]; interval_cases k <;> simp)

theorem ldVxK (x : Nibble) : Statement (.ldVxK x) :=
  fits_of_bits rfl (by intro k hk; rw [encode, getLsbD_packXKK]; interval_cases k <;> simp)

theorem ldDtVx (x : Nibble) : Statement (.ldDtVx x) :=
  fits_of_bits rfl (by intro k hk; rw [encode, getLsbD_packXKK]; interval_cases k <;> simp)

theorem ldStVx (x : Nibble) : Statement (.ldStVx x) :=
  fits_of_bits rfl (by intro k hk; rw [encode, getLsbD_packXKK]; interval_cases k <;> simp)

theorem addI (x : Nibble) : Statement (.addI x) :=
  fits_of_bits rfl (by intro k hk; rw [encode, getLsbD_packXKK]; interval_cases k <;> simp)

theorem ldF (x : Nibble) : Statement (.ldF x) :=
  fits_of_bits rfl (by intro k hk; rw [encode, getLsbD_packXKK]; interval_cases k <;> simp)

theorem ldB (x : Nibble) : Statement (.ldB x) :=
  fits_of_bits rfl (by intro k hk; rw [encode, getLsbD_packXKK]; interval_cases k <;> simp)

theorem ldMemVx (x : Nibble) : Statement (.ldMemVx x) :=
  fits_of_bits rfl (by intro k hk; rw [encode, getLsbD_packXKK]; interval_cases k <;> simp)

theorem ldVxMem (x : Nibble) : Statement (.ldVxMem x) :=
  fits_of_bits rfl (by intro k hk; rw [encode, getLsbD_packXKK]; interval_cases k <;> simp)

theorem nop0 (u : Addr12) : Statement (.nop0 u) :=
  fits_of_bits rfl (by intro k hk; rw [encode, getLsbD_packNNN]; interval_cases k <;> simp)

theorem nop8 (u : Addr12) : Statement (.nop8 u) :=
  fits_of_bits rfl (by intro k hk; rw [encode, getLsbD_packNNN]; interval_cases k <;> simp)

theorem nopE (u : Addr12) : Statement (.nopE u) :=
  fits_of_bits rfl (by intro k hk; rw [encode, getLsbD_packNNN]; interval_cases k <;> simp)

theorem nopF (u : Addr12) : Statement (.nopF u) :=
  fits_of_bits rfl (by intro k hk; rw [encode, getLsbD_packNNN]; interval_cases k <;> simp)

end Sys2Proof.Laws.EncodedInRow
end

