-- ==== Sys2Proof/Tests/Slice0.lean ====
section
/-! SUPPORT. Tests. Every expected result is a vector of 95_test_vectors.md or an example of the
instruction's own rule, unless the theorem names another rule. -/

namespace Sys2Proof.Tests

open Sys2Proof.Machine Sys2Proof.Claims

/-! ### Well-formedness: one ill-formed term per check -/

/-- 00E0 is CLS and 0123 is NOP (30_encoding.md R95). -/
theorem test_wf_nop0 : Instr.wf (.nop0 0x0E0#12) = false ∧ Instr.wf (.nop0 0x123#12) = true := by
  decide

/-- 8124 is ADD and 8008 is NOP (30_encoding.md R96). -/
theorem test_wf_nop8 : Instr.wf (.nop8 0x124#12) = false ∧ Instr.wf (.nop8 0x008#12) = true := by
  decide

/-- E19E is SKP and E1A2 is NOP (30_encoding.md R97). -/
theorem test_wf_nopE : Instr.wf (.nopE 0x19E#12) = false ∧ Instr.wf (.nopE 0x1A2#12) = true := by
  decide

/-- FA33 is LD B and F0FF is NOP (30_encoding.md R98). -/
theorem test_wf_nopF : Instr.wf (.nopF 0xA33#12) = false ∧ Instr.wf (.nopF 0x0FF#12) = true := by
  decide

/-! ### Decoding: every constructor, from a word written out by the opcode map (30_encoding.md R101) -/

theorem test_decode_control :
    decodeWord 0b0000_0000_1110_1110#16 = .ret ∧
    decodeWord 0b0001_0010_0010_1000#16 = .jp 0x228 ∧
    decodeWord 0b0010_0011_0000_0000#16 = .call 0x300 ∧
    decodeWord 0b0011_0011_0000_0111#16 = .seImm 3 0x07 ∧
    decodeWord 0b0100_0011_0000_1000#16 = .sneImm 3 0x08 ∧
    decodeWord 0b0101_0001_0010_0000#16 = .seReg 1 2 ∧
    decodeWord 0b1001_0001_0010_0000#16 = .sneReg 1 2 ∧
    decodeWord 0b1011_0011_0000_0000#16 = .jpV0 0x300 := by decide

theorem test_decode_nop :
    decodeWord 0b0000_0001_0010_0011#16 = .nop0 0x123 ∧
    decodeWord 0b1000_0000_0000_1000#16 = .nop8 0x008 ∧
    decodeWord 0b1110_0001_1010_0010#16 = .nopE 0x1A2 ∧
    decodeWord 0b1111_0000_1111_1111#16 = .nopF 0x0FF := by decide

theorem test_decode_alu :
    decodeWord 0b0110_0000_0000_0101#16 = .ldImm 0 0x05 ∧
    decodeWord 0b0111_0000_0000_1010#16 = .addImm 0 0x0A ∧
    decodeWord 0b1000_0001_0010_0000#16 = .ldReg 1 2 ∧
    decodeWord 0b1000_0001_0010_0001#16 = .orReg 1 2 ∧
    decodeWord 0b1000_0001_0010_0010#16 = .andReg 1 2 ∧
    decodeWord 0b1000_0001_0010_0011#16 = .xorReg 1 2 ∧
    decodeWord 0b1000_0001_0010_0100#16 = .addReg 1 2 ∧
    decodeWord 0b1000_0001_0010_0101#16 = .subReg 1 2 ∧
    decodeWord 0b1000_0001_0010_0110#16 = .shr 1 2 ∧
    decodeWord 0b1000_0001_0010_0111#16 = .subnReg 1 2 ∧
    decodeWord 0b1000_0001_0010_1110#16 = .shl 1 2 ∧
    decodeWord 0b1100_0011_0000_1111#16 = .rnd 3 0x0F := by decide

theorem test_decode_index_memory :
    decodeWord 0b1010_0010_1111_0000#16 = .ldI 0x2F0 ∧
    decodeWord 0b1111_0100_0001_1110#16 = .addI 4 ∧
    decodeWord 0b1111_0010_0010_1001#16 = .ldF 2 ∧
    decodeWord 0b1111_1010_0011_0011#16 = .ldB 0xA ∧
    decodeWord 0b1111_0010_0101_0101#16 = .ldMemVx 2 ∧
    decodeWord 0b1111_0001_0110_0101#16 = .ldVxMem 1 := by decide

theorem test_decode_display :
    decodeWord 0b0000_0000_1110_0000#16 = .cls ∧
    decodeWord 0b1101_0000_0001_0101#16 = .drw 0 1 5 := by decide

theorem test_decode_keys_timers :
    decodeWord 0b1110_0101_1001_1110#16 = .skp 5 ∧
    decodeWord 0b1110_0101_1010_0001#16 = .sknp 5 ∧
    decodeWord 0b1111_0011_0000_0111#16 = .ldVxDt 3 ∧
    decodeWord 0b1111_0010_0000_1010#16 = .ldVxK 2 ∧
    decodeWord 0b1111_0011_0001_0101#16 = .ldDtVx 3 ∧
    decodeWord 0b1111_0011_0001_1000#16 = .ldStVx 3 := by decide

/-- The bits a row does not examine (30_encoding.md R95, R97, R99). -/
theorem test_decode_unexamined :
    decodeWord 0x0120 = .cls ∧ decodeWord 0x012E = .ret ∧ decodeWord 0x5121 = .seReg 1 2 ∧
    decodeWord 0x9125 = .sneReg 1 2 ∧ decodeWord 0xE10E = .skp 1 := by decide

/-- One byte alone holds no instruction (30_encoding.md R90). -/
theorem test_decode_truncated : decodeBytes [0x12#8] = .error .truncated := rfl

theorem test_decodeTableWord : decodeTableWord 16 0x8124 = some (.addReg 1 2) := by decide

/-! ### One cycle: the word stands at `PC`, and `p` looks at the state after it -/

/-- What holds after one cycle that runs `w` in `s`. -/
def ran (w : Word) (s : State) (p : State → Bool) : Bool :=
  match step (placeWord w s) with
  | .next t => p t
  | .fault _ => false
  | .refused _ => false

/-- The reset state with some registers set. -/
def regs (l : List (Nibble × Byte)) : State :=
  l.foldl (fun s p => s.setReg p.1 p.2) State.reset

/-- The fault raised, as cause, address, word and info. -/
def faultIs (c : FaultCause) (pc0 : Word) (w : Option Word) (info : Word) (t : State) : Bool :=
  t.fault == .faulted ⟨c, pc0, w, info⟩ && t.pc == pc0

theorem test_nop : ran 0x8008 State.reset (fun t => t.pc == 0x202 && t.ir == 0x8008) = true := by
  decide
theorem test_jp : ran 0x1228 (State.reset.setPc 0xFFC) (fun t => t.pc == 0x228) = true := by decide
theorem test_call : ran 0x2300 (State.reset.setPc 0x204)
    (fun t => t.pc == 0x300 && t.sp == 1 && t.stack[0] == 0x206) = true := by decide
theorem test_call_overflow : ran 0x2300 { State.reset with sp := 16 }
    (fun t => faultIs .stackOverflow 0x200 (some 0x2300) 16 t && t.sp == 16) = true := by decide
theorem test_ret : ran 0x00EE
    { State.reset.setPc 0x300 with sp := 1, stack := State.reset.stack.set 0 0x206 }
    (fun t => t.pc == 0x206 && t.sp == 0 && t.stack[0] == 0x206) = true := by decide
theorem test_ret_underflow : ran 0x00EE State.reset
    (faultIs .stackUnderflow 0x200 (some 0x00EE) 0) = true := by decide
theorem test_jpV0 : ran 0xBFFF (regs [(0, 0xFF)]) (fun t => t.pc == 0x10FE) = true := by decide
theorem test_seImm : ran 0x3307 (regs [(3, 0x07)]) (fun t => t.pc == 0x204) = true := by decide
theorem test_sneImm : ran 0x4307 (regs [(3, 0x07)]) (fun t => t.pc == 0x202) = true := by decide
theorem test_seReg_self : ran 0x5120 (regs [(1, 1), (2, 2)]) (fun t => t.pc == 0x204) = true := by
  decide
theorem test_seReg_fixed :
    ran 0x5120 { regs [(1, 1), (2, 2)] with cfg := { defaultConfig with seVvMode := .fixed } }
      (fun t => t.pc == 0x202) = true := by decide
theorem test_sneReg : ran 0x9120 (regs [(1, 1), (2, 2)]) (fun t => t.pc == 0x204) = true := by decide

theorem test_ldImm : ran 0x6F42 State.reset (fun t => t.reg 0xF == 0x42) = true := by decide
theorem test_addImm : ran 0x70FF (regs [(0, 0x05)])
    (fun t => t.reg 0 == 0x04 && t.reg 0xF == 0) = true := by decide
theorem test_ldReg : ran 0x8120 (regs [(2, 0x33)]) (fun t => t.reg 1 == 0x33) = true := by decide
theorem test_orReg : ran 0x8121 (regs [(1, 0x0F), (2, 0xF0)]) (fun t => t.reg 1 == 0xFF) = true := by
  decide
theorem test_andReg : ran 0x8122 (regs [(1, 0x3C), (2, 0x0F)]) (fun t => t.reg 1 == 0x0C) = true := by
  decide
theorem test_xorReg : ran 0x8123 (regs [(1, 0xFF), (2, 0x0F)]) (fun t => t.reg 1 == 0xF0) = true := by
  decide
theorem test_addReg : ran 0x8124 (regs [(1, 0xC8), (2, 0x64)])
    (fun t => t.reg 1 == 0x2C && t.reg 0xF == 1) = true := by decide
theorem test_addReg_vf : ran 0x8F14 (regs [(0xF, 0xFF), (1, 0x01)]) (fun t => t.reg 0xF == 1) = true ∧
    ran 0x8F14 { regs [(0xF, 0xFF), (1, 0x01)] with cfg := { defaultConfig with vfLast := false } }
      (fun t => t.reg 0xF == 0) = true := by decide
theorem test_subReg : ran 0x8125 (regs [(1, 0x0A), (2, 0x03)])
    (fun t => t.reg 1 == 0x07 && t.reg 0xF == 1) = true := by decide
theorem test_subReg_equal : ran 0x8125 (regs [(1, 0x07), (2, 0x07), (0xF, 9)])
    (fun t => t.reg 1 == 0 && t.reg 0xF == 0) = true := by decide
theorem test_shr : ran 0x8126 (regs [(1, 0xFF), (2, 0x04)])
    (fun t => t.reg 1 == 0x7F && t.reg 0xF == 1) = true := by decide
theorem test_shr_y :
    ran 0x8126 { regs [(1, 0xFF), (2, 0x04)] with cfg := { defaultConfig with shiftSource := .y } }
      (fun t => t.reg 1 == 0x02 && t.reg 0xF == 0) = true := by decide
theorem test_subnReg : ran 0x8127 (regs [(1, 0x01), (2, 0x00)])
    (fun t => t.reg 1 == 0xFF && t.reg 0xF == 0) = true := by decide
theorem test_shl : ran 0x810E (regs [(1, 0x81)])
    (fun t => t.reg 1 == 0x02 && t.reg 0xF == 1) = true := by decide
theorem test_shl_y :
    ran 0x812E { regs [(1, 0x01), (2, 0x80)] with cfg := { defaultConfig with shiftSource := .y } }
      (fun t => t.reg 1 == 0 && t.reg 0xF == 1) = true := by decide

/-- The draw is free: with draw 0xA7, C30F leaves 0x07. -/
theorem test_rnd (h : Config.freeByte 0 = 0xA7#8) :
    exec (.rnd 3 0x0F) State.reset = .next { State.reset.setReg 3 0x07 with draws := 1 } := by
  show execRnd 3 0x0F State.reset = _
  simp only [execRnd, drawByte]
  rw [show State.reset.draws = 0 from rfl, h]
  rfl

theorem test_ldI : ran 0xAFFF State.reset (fun t => t.i == 0xFFF) = true := by decide
theorem test_addI : ran 0xF01E ((regs [(0, 0x02)]).setI 0xFFFF) (fun t => t.i == 0x0001) = true := by
  decide
theorem test_ldF : ran 0xF229 (regs [(2, 0x0A)]) (fun t => t.i == 0x032) = true ∧
    ran 0xF029 (regs [(0, 0xFF)]) (fun t => t.i == 0x4FB) = true := by decide
theorem test_ldB : ran 0xFA33 ((regs [(0xA, 157)]).setI 0x300)
    (fun t => t.bytesAt 0x300 3 == [1, 5, 7] && t.i == 0x300) = true := by decide
theorem test_ldB_bounds : ran 0xF033 ((regs [(0, 255)]).setI 0xFFE)
    (fun t => faultIs .dataBounds 0x200 (some 0xF033) 0x1000 t && t.byteAt 0xFFE == 0) = true := by decide
theorem test_ldMemVx : ran 0xF255 ((regs [(0, 1), (1, 2), (2, 3)]).setI 0x300)
    (fun t => t.bytesAt 0x300 4 == [1, 2, 3, 0] && t.i == 0x300) = true := by decide
theorem test_ldMemVx_incr :
    ran 0xF255 { (regs [(0, 1)]).setI 0x300 with cfg := { defaultConfig with ldstIIncr := true } }
      (fun t => t.i == 0x303) = true := by decide
theorem test_ldVxMem : ran 0xFF65 State.reset
    (fun t => t.v.toList == [0xF0, 0x90, 0x90, 0x90, 0xF0, 0x20, 0x60, 0x20, 0x20, 0x70, 0xF0, 0x10,
      0xF0, 0x80, 0xF0, 0xF0]) = true := by decide
theorem test_ldVxMem_bounds : ran 0xFF65 (State.reset.setI 0xFF1)
    (faultIs .dataBounds 0x200 (some 0xFF65) 0x1000) = true := by decide

theorem test_cls : ran 0x0000 { State.reset with fb := setPixel State.reset.fb 5 7 true }
    (fun t => pixel t.fb 5 7 == false) = true := by decide
/-- 43_display.md R242: the font glyph "0" at the origin. -/
theorem test_drw : ran 0xD015 State.reset (fun t =>
    pixel t.fb 0 0 && pixel t.fb 3 0 && !pixel t.fb 4 0 && pixel t.fb 0 1 && !pixel t.fb 1 1 &&
    pixel t.fb 3 3 && pixel t.fb 2 4 && !pixel t.fb 0 5 && t.reg 0xF == 0) = true := by decide
/-- 43_display.md R245, on a screen where pixel (0, 0) is already on. -/
theorem test_drw_wrap : ran 0xD011
    { (regs [(0, 63)]).setI 0x300 with
      mem := [(0x300, 0xC0)]
      fb := setPixel State.reset.fb 0 0 true }
    (fun t => pixel t.fb 63 0 && !pixel t.fb 0 0 && !pixel t.fb 1 0 && t.reg 0xF == 1) = true := by decide

/-- The reset state with some keys pressed. -/
def keysDown (l : List (Fin 16)) (s : State) : State :=
  { s with key := l.foldl (fun k (j : Fin 16) => k.set j.val true j.isLt) s.key }

theorem test_skp : ran 0xE59E (keysDown [0xA] (regs [(5, 0x0A)])) (fun t => t.pc == 0x204) = true := by
  decide
theorem test_sknp : ran 0xE5A1 (keysDown [0xA] (regs [(5, 0x0A)])) (fun t => t.pc == 0x202) = true := by
  decide
theorem test_sknp_range : ran 0xE0A1 (regs [(0, 0x10)])
    (faultIs .keyRange 0x200 (some 0xE0A1) 0x10) = true := by decide
theorem test_ldVxDt : ran 0xFF07 { State.reset with dt := 9 } (fun t => t.reg 0xF == 9) = true := by
  decide
theorem test_ldDtVx : ran 0xF315 (regs [(3, 0x3C)]) (fun t => t.dt == 0x3C) = true := by decide
theorem test_ldStVx : ran 0xF318 (regs [(3, 0x05)]) (fun t => t.st == 0x05) = true := by decide
theorem test_ldVxK_waits : ran 0xF20A (State.reset.setPc 0x300)
    (fun t => t.pc == 0x300 && t.fault == .run) = true ∧
    cycleResult (placeWord 0xF20A State.reset) = .waitingKey := by decide
theorem test_ldVxK : ran 0xF00A (keysDown [4, 9] State.reset)
    (fun t => t.reg 0 == 4 && t.pc == 0x202 && t.key[4]) = true ∧
    ran 0xF00A (keysDown [4, 9] { State.reset with cfg := { defaultConfig with fx0aClearKey := true } })
      (fun t => !t.key[4] && t.key[9]) = true := by decide

/-- 95_test_vectors.md section 2.2: an odd fetch is legal, a fetch at 0xFFF is not. -/
theorem test_fetch : ran 0x1234 (State.reset.setPc 0xFFD)
    (fun t => t.ir == 0x1234 && t.pc == 0x234) = true ∧
    (match step (State.reset.setPc 0xFFF) with
      | .next t => faultIs .fetchBounds 0xFFF none 0x1000 t
      | .fault _ => false
      | .refused _ => false) = true := by decide

/-- 95_test_vectors.md sections 2.7 and 2.8. -/
theorem test_tick : (tickTimers { State.reset with dt := 1 }).dt = 0 ∧
    (tickTimers State.reset).dt = 0 := by decide
theorem test_load :
    (load [0xAB, 0xCD] (load [0x11, 0x22, 0x33, 0x44] State.reset).1).1.bytesAt 0x200 4 =
      [0xAB, 0xCD, 0x33, 0x44] := by decide

/-! ### Witnesses: a state and operands that meet the hypotheses of each statement together -/

theorem witness_DecodeOfEncodeIsIdentity :
    Instr.WellFormed (.nopF 0x0FF) ∧ Instr.WellFormed (.drw 0xF 0 0xF) := by decide

theorem witness_DecoderFollowsOpcodeMap :
    namedRows[0]? = some ⟨0xF00F, 0x0000⟩ ∧ namedRows[33]? = some ⟨0xF0FF, 0xF065⟩ ∧
    familyRows[3]? = some ⟨0xF000, 0xF000⟩ := by decide

/-- The two bytes of an odd address, and of the last address a fetch succeeds at. -/
theorem witness_StepRunsDecodedInstruction :
    ∃ s : State, s.fault = .run ∧ s.pc.toNat = 0xFFE ∧
      decodeBytes [s.byteAt s.pc.toNat, s.byteAt (s.pc.toNat + 1)] = .ok (.ret, []) :=
  ⟨{ State.reset.setPc 0xFFE with mem := [(0xFFF, 0x0E)] }, rfl, rfl, rfl⟩

theorem witness_FetchOutOfBoundsFaults :
    ∃ s : State, s.fault = .run ∧ s.pc.toNat > 0xFFE :=
  ⟨State.reset.setPc 0xFFF, rfl, by decide⟩

/-- A core that RET has faulted at 0x200. -/
def faultedCore : State :=
  { State.reset with fault := .faulted ⟨.stackUnderflow, 0x200, some 0x00EE, 0⟩ }

theorem witness_FaultedCoreStaysFaulted : ∃ s r, State.fault s = .faulted r := ⟨faultedCore, _, rfl⟩

/-- The state in which `w` is fetched at 0x200. -/
def at200 (w : Word) (s : State) : State := { s with mem := [(0x200, hiByte w), (0x201, loByte w)] }

theorem witness_FaultedCycleCommitsNothing :
    (∃ s t r, s.fault = .run ∧ step s = .next t ∧ State.fault t = .faulted r ∧ s.pc.toNat ≤ 0xFFE) ∧
    (∃ s t r, s.fault = .run ∧ step s = .next t ∧ State.fault t = .faulted r ∧ s.pc.toNat > 0xFFE) :=
  ⟨⟨at200 0x010E State.reset, _, _, rfl, rfl, rfl, by decide⟩,
   ⟨State.reset.setPc 0x10FE, _, _, rfl, rfl, rfl, by decide⟩⟩

/-- An instruction faults in a state with a cause. -/
def Faults (i : Instr) (s : State) (c : FaultCause) : Prop :=
  ∃ t r, s.fault = .run ∧ exec i s = .next t ∧ t.fault = .faulted r ∧ r.cause = c

/-- One witness for each case, at the first value that faults. -/
theorem witness_FaultCausesAreListed :
    Faults (.drw 0 0 2) (State.reset.setI 0xFFF) .dataBounds ∧
    Faults (.ldB 0) (State.reset.setI 0xFFE) .dataBounds ∧
    Faults (.ldMemVx 1) (State.reset.setI 0xFFF) .dataBounds ∧
    Faults (.ldVxMem 1) (State.reset.setI 0xFFF) .dataBounds ∧
    Faults (.call 0x300) { State.reset with sp := 16 } .stackOverflow ∧
    Faults .ret State.reset .stackUnderflow ∧
    Faults (.skp 3) (regs [(3, 16)]) .keyRange ∧ Faults (.sknp 3) (regs [(3, 16)]) .keyRange :=
  ⟨⟨_, _, rfl, rfl, rfl, rfl⟩, ⟨_, _, rfl, rfl, rfl, rfl⟩, ⟨_, _, rfl, rfl, rfl, rfl⟩,
   ⟨_, _, rfl, rfl, rfl, rfl⟩, ⟨_, _, rfl, rfl, rfl, rfl⟩, ⟨_, _, rfl, rfl, rfl, rfl⟩,
   ⟨_, _, rfl, rfl, rfl, rfl⟩, ⟨_, _, rfl, rfl, rfl, rfl⟩⟩

/-- A cycle that executes, one that waits and one that faults. -/
theorem witness_CycleReport :
    (∃ t, step (at200 0x6005 State.reset) = .next t) ∧
    cycleResult (at200 0x6005 State.reset) = .executed ∧
    (∃ t, step (at200 0xF10A State.reset) = .next t) ∧
    cycleResult (at200 0xF10A State.reset) = .waitingKey ∧
    (∃ t, step (at200 0x00EE State.reset) = .next t) ∧
    cycleResult (at200 0x00EE State.reset) = .faulted :=
  ⟨⟨_, rfl⟩, rfl, ⟨_, rfl⟩, rfl, ⟨_, rfl⟩, rfl⟩

theorem witness_CompletedCycleWritesIr :
    ∃ s t, s.fault = .run ∧ step s = .next t ∧ State.fault t = .run :=
  ⟨at200 0x6005 State.reset, _, rfl, rfl, rfl⟩

/-- A plain instruction, and a skip that is taken. -/
theorem witness_PcAdvancesByTwoOrFour :
    (∃ s t, s.fault = .run ∧ step s = .next t ∧ State.fault t = .run ∧
      decodeWord (s.wordAt s.pc.toNat) = .ldImm 0 5) ∧
    (∃ s t, s.fault = .run ∧ step s = .next t ∧ State.fault t = .run ∧
      decodeWord (s.wordAt s.pc.toNat) = .seImm 0 0) :=
  ⟨⟨at200 0x6005 State.reset, _, rfl, rfl, rfl, rfl⟩,
   ⟨at200 0x3000 State.reset, _, rfl, rfl, rfl, rfl⟩⟩

/-- The invariant of a running core on a word, and of a faulted core. -/
theorem inv_at200 : Inv (at200 0xF155 ((regs [(0, 0x12), (1, 0x34)]).setI 0x202)) :=
  ⟨by decide, by decide, by decide, fun _ h => nomatch h⟩

theorem inv_faultedCore : Inv faultedCore :=
  ⟨by decide, by decide, by decide, fun r h => by
    cases h; exact ⟨rfl, ⟨_, rfl⟩, by decide, rfl, rfl⟩⟩

theorem witness_StepKeepsInvariant :
    (∃ s t, Inv s ∧ step s = .next t ∧ s.fault = .run) ∧
    (∃ s t r, Inv s ∧ step s = .next t ∧ s.fault = .faulted r) :=
  ⟨⟨_, _, inv_at200, rfl, rfl⟩, ⟨_, _, _, inv_faultedCore, rfl, rfl⟩⟩

theorem witness_TransactionsKeepInvariant :
    (∃ s t, Inv s ∧ transact (.load (some [0x12, 0x00])) s = .next t) ∧
    (∃ s t, Inv s ∧ transact .construct s = .next t) :=
  ⟨⟨_, _, inv_faultedCore, rfl⟩, ⟨_, _, inv_faultedCore, rfl⟩⟩

theorem witness_ParametersNeverChange :
    (∃ t, transact .construct faultedCore = .next t) ∧
    (∃ t, transact .stepCycle (at200 0x6005 State.reset) = .next t) := ⟨⟨_, rfl⟩, ⟨_, rfl⟩⟩

theorem witness_CanonicalMemoryIsUnique :
    ∃ m m' : Memory, m.wf defaultConfig ∧ m'.wf defaultConfig ∧
      ∀ a, a < 4096 → m.read defaultConfig a = m'.read defaultConfig a :=
  ⟨[(0x300, 1), (0xFFF, 2)], [(0x300, 1), (0xFFF, 2)], by decide, by decide, fun _ _ => rfl⟩

theorem wordAt_at200 (w : Word) : (at200 w State.reset).wordAt 0x200 = w := wordOfBytes_hi_lo w

/-- Unassigned words of each family, at the edges of the assigned selectors. -/
theorem unassigned_words : ∀ w ∈ [0x00E1, 0x00FF, 0x8008, 0x800F, 0xE1A2, 0xEFFF, 0xF000, 0xF0FF],
    w < 65536 ∧ Unassigned w := by
  unfold Unassigned; decide

theorem witness_NopOnlyAdvances :
    ∀ w ∈ [0x00E1, 0x00FF, 0x8008, 0x800F, 0xE1A2, 0xEFFF, 0xF000, 0xF0FF], ∃ s : State,
      s.fault = .run ∧ s.pc.toNat ≤ 0xFFE ∧ Unassigned (s.wordAt s.pc.toNat).toNat := by
  intro w hw
  obtain ⟨h1, h2⟩ := unassigned_words w hw
  refine ⟨at200 (BitVec.ofNat 16 w) State.reset, rfl, by rw [show (at200 _ _).pc = 0x200 from rfl]; decide, ?_⟩
  rw [show (at200 (BitVec.ofNat 16 w) State.reset).pc.toNat = 0x200 from rfl, wordAt_at200,
    BitVec.toNat_ofNat, Nat.mod_eq_of_lt h1]
  exact h2

theorem witness_CallPushesReturnAddress :
    (State.reset.sp.val < 16 ∧ ({ State.reset with sp := 15 } : State).sp.val < 16) ∧
    ({ State.reset with sp := 16 } : State).sp.val = 16 := by decide

theorem witness_ReturnPopsReturnAddress :
    ({ State.reset with sp := 1 } : State).sp.val = (0 : Fin 16).val + 1 ∧
    ({ State.reset with sp := 16 } : State).sp.val = (15 : Fin 16).val + 1 ∧
    State.reset.sp.val = 0 := by decide

/-- The deepest call, and the state it leaves as the one RET runs in. -/
theorem witness_ReturnUndoesCall :
    ∃ s t t' : State, s.sp.val = 15 ∧ exec (.call 0x300) s = .next t ∧ t'.stack = t.stack ∧
      t'.sp = t.sp :=
  ⟨{ State.reset with sp := 15 }, _, _, rfl, rfl, rfl, rfl⟩

/-- A call, a return and an instruction that is neither. -/
theorem witness_StackChangesOnlyByCallAndReturn :
    (∃ t, exec (.call 0x300) State.reset = .next t) ∧
    (∃ t, exec .ret { State.reset with sp := 1 } = .next t) ∧
    ∃ t, exec (.ldImm 0 5) State.reset = .next t := ⟨⟨_, rfl⟩, ⟨_, rfl⟩, ⟨_, rfl⟩⟩

theorem witness_SkipIfRegistersEqual :
    State.reset.cfg.seVvMode = .self ∧
    (State.constructed { defaultConfig with seVvMode := .fixed }).cfg.seVvMode = .fixed := by decide

theorem witness_ShiftsByOne :
    ∃ src, src = (match (regs [(1, 0x81)]).cfg.shiftSource with
      | .x => ((regs [(1, 0x81)]).reg 1).toNat
      | .y => ((regs [(1, 0x81)]).reg 2).toNat) := ⟨_, rfl⟩

theorem witness_OnlyRandomTakesADraw :
    (∃ t, exec (.rnd 0 0xFF) State.reset = .next t) ∧
    ∃ t, exec (.ldImm 0 5) State.reset = .next t := ⟨⟨_, rfl⟩, ⟨_, rfl⟩⟩

theorem witness_RegisterWritesAreListed :
    ∃ t, exec (.addReg 1 2) State.reset = .next t ∧ ¬ WritesReg (.addReg 1 2) 2 :=
  ⟨_, rfl, by unfold WritesReg; decide⟩

/-- The last address that fits, and the first that does not. -/
theorem witness_BcdDigitsStored :
    (State.reset.setI 0xFFD).mem.wf (State.reset.setI 0xFFD).cfg ∧
    indexAddr (State.reset.setI 0xFFD) + 2 ≤ 0xFFF ∧ indexAddr (State.reset.setI 0xFFE) + 2 > 0xFFF := by
  decide

theorem witness_RegistersStored :
    (State.reset.setI 0xFF0).mem.wf (State.reset.setI 0xFF0).cfg ∧
    indexLast 0xF (State.reset.setI 0xFF0) ≤ 0xFFF ∧ indexLast 0xF (State.reset.setI 0xFF1) > 0xFFF := by
  decide

theorem witness_RegistersLoaded :
    indexLast 0 (State.reset.setI 0xFFF) ≤ 0xFFF ∧ indexLast 0 (State.reset.setI 0x1000) > 0xFFF := by
  decide

theorem witness_OnlyTwoInstructionsStore :
    ∃ t, exec (.ldVxMem 3) State.reset = .next t ∧ (∀ x, Instr.ldVxMem 3 ≠ .ldB x) ∧
      ∀ x, Instr.ldVxMem 3 ≠ .ldMemVx x := ⟨_, rfl, nofun, nofun⟩

theorem inv_at200_ldB : Inv (at200 0xFA33 ((regs [(0xA, 157)]).setI 0x203)) :=
  ⟨by decide, by decide, by decide, fun _ h => nomatch h⟩

/-- Both bytes of the next word stored over by LD [I], Vx; only its second byte by LD B, Vx. -/
theorem witness_StoreIsSeenByNextFetch :
    (∃ (s t : State) (x : Nibble), Inv s ∧ s.fault = .run ∧ s.pc.toNat ≤ 0xFFC ∧ step s = .next t ∧
      t.fault = .run ∧ decodeWord (s.wordAt s.pc.toNat) = .ldMemVx x ∧
      s.pc.toNat + 2 = s.i.toNat + (0#4).toNat ∧ s.pc.toNat + 3 = s.i.toNat + (1#4).toNat) ∧
    (∃ (s t : State) (x : Nibble), Inv s ∧ s.fault = .run ∧ s.pc.toNat ≤ 0xFFC ∧ step s = .next t ∧
      t.fault = .run ∧ decodeWord (s.wordAt s.pc.toNat) = .ldB x ∧
      s.pc.toNat + 2 < s.i.toNat ∧ s.pc.toNat + 3 = s.i.toNat) :=
  ⟨⟨_, _, 1, inv_at200, rfl, by decide, rfl, rfl, rfl, by decide, by decide⟩,
   ⟨_, _, 0xA, inv_at200_ldB, rfl, by decide, rfl, rfl, rfl, by decide, by decide⟩⟩

/-- A sprite of no rows anywhere, one row at the last address, and one row too many. -/
theorem witness_DrawTogglesSpritePixels :
    SpriteInside (State.reset.setI 0xFFFF) 0 ∧ SpriteInside (State.reset.setI 0xFFF) 1 ∧
    SpriteInside (State.reset.setI 0xFF1) 15 ∧ ¬ SpriteInside (State.reset.setI 0xFF2) 15 := by
  unfold SpriteInside; decide

/-- The screen with every pixel on, on which any set sprite bit collides. -/
def litScreen : State := { State.reset with fb := Vector.replicate 32 (Vector.replicate 64 true) }

/-- The two flag clauses: a draw that turns a pixel off, and one that does not. -/
theorem witness_DrawTogglesSpritePixels_flag :
    (∃ t, exec (.drw 0 1 1) litScreen = .next t ∧
      ∃ c r, pixel litScreen.fb c r = true ∧ pixel t.fb c r = false) ∧
    (∃ t, exec (.drw 0 1 1) State.reset = .next t ∧
      ∀ c r, pixel State.reset.fb c r = true → pixel t.fb c r = true) :=
  ⟨⟨_, rfl, 0, 0, by decide, by decide⟩, ⟨_, rfl, by decide⟩⟩

theorem witness_DrawTwiceRestoresScreen :
    ∃ s t s' u : State, SpriteInside s 5 ∧ exec (.drw 0 1 5) s = .next t ∧ s'.fb = t.fb ∧
      s'.reg 0 = s.reg 0 ∧ s'.reg 1 = s.reg 1 ∧ s'.i = s.i ∧
      (∀ row, row < (5#4).toNat → s'.byteAt (s.i.toNat + row) = s.byteAt (s.i.toNat + row)) ∧
      exec (.drw 0 1 5) s' = .next u :=
  ⟨State.reset, _, _, _, by unfold SpriteInside; decide, rfl, rfl, rfl, rfl, rfl, fun _ _ => rfl, rfl⟩

theorem witness_DrawWrapsAtColumn63 :
    ∃ s : State, (s.reg 0).toNat = 63 ∧ s.i.toNat ≤ 0xFFF ∧ s.byteAt s.i.toNat = 0xC0#8 :=
  ⟨{ (regs [(0, 63)]).setI 0xFFF with mem := [(0xFFF, 0xC0)] }, by decide, by decide, by decide⟩

theorem witness_FramebufferChangesOnlyByClsAndDrw :
    ∃ t, exec .ret { State.reset with sp := 1 } = .next t ∧ Instr.ret ≠ .cls ∧
      ∀ x y n, Instr.ret ≠ .drw x y n := ⟨_, rfl, nofun, nofun⟩

theorem witness_SkipsOnKeys :
    ((regs [(2, 0)]).reg 2).toNat = (0 : Fin 16).val ∧
    ((regs [(2, 15)]).reg 2).toNat = (15 : Fin 16).val ∧ ((regs [(2, 16)]).reg 2).toNat > 15 := by
  decide

/-- No key, the first key, and the last key alone. -/
theorem witness_WaitForKey :
    (∀ k : Fin 16, State.reset.key[k] = false) ∧
    ((keysDown [0, 9] State.reset).key[(0 : Fin 16)] = true ∧
      ∀ j : Fin 16, j < 0 → (keysDown [0, 9] State.reset).key[j] = false) ∧
    ((keysDown [15] State.reset).key[(15 : Fin 16)] = true ∧
      ∀ j : Fin 16, j < 15 → (keysDown [15] State.reset).key[j] = false) := by decide

theorem witness_TimersChangeOnlyByTheirLoads :
    (∃ t, exec (.ldStVx 0) State.reset = .next t ∧ ∀ x, Instr.ldStVx 0 ≠ .ldDtVx x) ∧
    ∃ t, exec (.ldDtVx 0) State.reset = .next t ∧ ∀ x, Instr.ldDtVx 0 ≠ .ldStVx x :=
  ⟨⟨_, rfl, nofun⟩, ⟨_, rfl, nofun⟩⟩

theorem witness_KeypadChangesOnlyByWait :
    (∃ t, exec (.skp 0) (State.constructed { defaultConfig with fx0aClearKey := true }) = .next t ∧
      ∀ x, Instr.skp 0 ≠ .ldVxK x) ∧
    ∃ t, exec (.ldVxK 0) (keysDown [4] State.reset) = .next t ∧
      (keysDown [4] State.reset).cfg.fx0aClearKey = false :=
  ⟨⟨_, rfl, nofun⟩, ⟨_, rfl, rfl⟩⟩

theorem witness_KeypadWriteIsSeen :
    ((regs [(2, 15)]).reg 2).toNat = (15 : Fin 16).val := by decide

/-- An image of the greatest length, and one byte more. -/
theorem witness_LoadCopiesImage :
    State.reset.mem.wf State.reset.cfg ∧ (List.replicate 3584 (0x12#8)).length ≤ 3584 :=
  ⟨by decide, by rw [List.length_replicate]⟩

theorem witness_FailedLoadChangesNothing : (List.replicate 3585 (0x12#8)).length > 3584 := by
  rw [List.length_replicate]; decide

/-- The edges of the ranges that statements name. -/
theorem witness_BootWithoutProgram : 0 ≤ 1792 ∧ 1792 ≤ 1792 := by decide

theorem witness_ResetState : (80 ≤ 80 ∧ 80 < 4096) ∧ (80 ≤ 4095 ∧ 4095 < 4096) := by decide

/-- Both clauses about the mask, and a destination that is VF and one that is not. -/
theorem witness_RandomIsMaskedDraw : ∃ kk kk' : Byte, kk = 0x00#8 ∧ kk' = 0xFF#8 := ⟨_, _, rfl, rfl⟩

theorem witness_ResultAndFlag : ∃ x x' : Nibble, x ≠ 0xF#4 ∧ x' = 0xF#4 := ⟨0, _, by decide, rfl⟩

theorem witness_ZeroWordClearsScreen :
    ∃ s : State, s.fault = .run ∧ s.pc.toNat ≤ 0xFFE ∧ s.byteAt s.pc.toNat = 0x00#8 ∧
      s.byteAt (s.pc.toNat + 1) = 0x00#8 :=
  ⟨litScreen.setPc 0xFFE, rfl, by decide, by decide, by decide⟩

end Sys2Proof.Tests
end

