-- ==== Sys2Proof/Proofs/Control.lean ====
section
/-! PROOFS. The jump and the conditional skips (40_control.md R132, R134 to R136, R138): what the
writes of `PC` they share leave unchanged, then each statement from it. -/

namespace Sys2Proof.Claims

open Sys2Proof.Machine

/-- The record equation of `OnlyPc` carries its other two clauses: memory, parameters and register
file are fields other than `PC`. -/
theorem onlyPc_of_eq {s t : State} (h : t = { s with pc := t.pc }) : OnlyPc s t := by
  have hmem : t.mem = s.mem := by rw [h]
  have hcfg : t.cfg = s.cfg := by rw [h]
  have hv : t.v = s.v := by rw [h]
  exact ⟨h, State.byteAt_congr hmem hcfg, State.reg_congr hv⟩

theorem onlyPc_setPc (s : State) (p : Word) : OnlyPc s (s.setPc p) := onlyPc_of_eq rfl

theorem onlyPc_skipIf (c : Bool) (s : State) : OnlyPc s (skipIf c s) := by
  cases c with
  | false => exact onlyPc_of_eq rfl
  | true => exact onlyPc_setPc s (s.pc + 2)

/-- An instruction whose meaning is `skip_if(c)` (R134) skips under the condition `c` tests. -/
theorem skips_of_exec_eq_skipIf {i : Instr} {s : State} {c : Bool} {P : Prop}
    (hexec : exec i s = .next (skipIf c s)) (hc : c = true ↔ P) : Skips i s P := by
  refine ⟨skipIf c s, hexec, onlyPc_skipIf c s, fun hP => ?_, fun hP => ?_⟩
  · rw [skipIf_pc, if_pos (hc.mpr hP)]
  · rw [skipIf_pc, if_neg (mt hc.mp hP)]

/-- Settles O22: the target is the 12-bit operand zero-extended, so its value is the operand's. -/
theorem jumpSetsPc : Obligations.JumpSetsPc := by
  intro nnn s
  have htarget : (zext16 nnn).toNat = nnn.toNat :=
    BitVec.toNat_setWidth_of_le (by decide)
  exact ⟨s.setPc (zext16 nnn), rfl, onlyPc_setPc s _, htarget⟩

/-- Settles O28: each of the three is `skip_if` of the Boolean test of its condition. -/
theorem conditionalSkips : Obligations.ConditionalSkips := by
  intro x y kk s
  exact ⟨skips_of_exec_eq_skipIf rfl beq_iff_eq, skips_of_exec_eq_skipIf rfl bne_iff_ne,
    skips_of_exec_eq_skipIf rfl bne_iff_ne⟩

end Sys2Proof.Claims
end

section
/-! PROOFS. Immediate load and add, and copy and bitwise combination of two registers (41_alu.md
R171 to R176): each is one register write, whose frame is proved once. -/

namespace Sys2Proof.Claims

open Sys2Proof.Machine

/-- The record equation of `OnlyRegs` carries its clause about memory: memory and parameters are
fields other than the register file. -/
theorem onlyRegs_of_eq {W : Nibble → Prop} {s t : State} (h : t = { s with v := t.v })
    (hreg : ∀ j, ¬ W j → t.reg j = s.reg j) : OnlyRegs W s t := by
  have hmem : t.mem = s.mem := by rw [h]
  have hcfg : t.cfg = s.cfg := by rw [h]
  exact ⟨h, State.byteAt_congr hmem hcfg, hreg⟩

theorem onlyRegs_setReg (s : State) (x : Nibble) (b : Byte) : OnlyRegs (· = x) s (s.setReg x b) :=
  onlyRegs_of_eq rfl fun _ hj => State.reg_setReg_other s b hj

/-- Settles O30: byte addition is the sum modulo 256. -/
theorem immediateLoadAndAdd : Obligations.ImmediateLoadAndAdd := by
  intro x kk s
  refine ⟨⟨_, rfl, onlyRegs_setReg s x kk, State.reg_setReg_same s x kk⟩,
    ⟨_, rfl, onlyRegs_setReg s x (s.reg x + kk), ?_⟩⟩
  rw [State.reg_setReg_same, BitVec.toNat_add]

/-- Settles O31: the bit vector operations act bit by bit. -/
theorem copyAndBitwise : Obligations.CopyAndBitwise := by
  intro x y s
  refine ⟨⟨_, rfl, onlyRegs_setReg s x (s.reg y), State.reg_setReg_same s x (s.reg y)⟩,
    ⟨_, rfl, onlyRegs_setReg s x (s.reg x ||| s.reg y), fun k => ?_⟩,
    ⟨_, rfl, onlyRegs_setReg s x (s.reg x &&& s.reg y), fun k => ?_⟩,
    ⟨_, rfl, onlyRegs_setReg s x (s.reg x ^^^ s.reg y), fun k => ?_⟩⟩
  · rw [State.reg_setReg_same, BitVec.getLsbD_or]
  · rw [State.reg_setReg_same, BitVec.getLsbD_and]
  · rw [State.reg_setReg_same, BitVec.getLsbD_xor, Bool.bne_eq_xor]

end Sys2Proof.Claims
end

section
/-! PROOFS. The index register's load and add (42_index_memory.md R210, R211): both write `I` and
nothing else, and differ only in the value written. -/

namespace Sys2Proof.Claims

open Sys2Proof.Machine

/-- The record equation of `OnlyIndex` carries its other two clauses: memory, parameters and register
file are fields other than `I`. -/
theorem onlyIndex_of_eq {s t : State} (h : t = { s with i := t.i }) : OnlyIndex s t := by
  have hmem : t.mem = s.mem := by rw [h]
  have hcfg : t.cfg = s.cfg := by rw [h]
  have hv : t.v = s.v := by rw [h]
  exact ⟨h, State.byteAt_congr hmem hcfg, State.reg_congr hv⟩

theorem onlyIndex_setI (s : State) (w : Word) : OnlyIndex s (s.setI w) := onlyIndex_of_eq rfl

theorem toNat_zext16 {n : Nat} (v : BitVec n) (hn : n ≤ 16) : (zext16 v).toNat = v.toNat :=
  BitVec.toNat_setWidth_of_le hn

/-- Settles O38: zero extension keeps the operand's value, and addition of 16-bit words is the sum
modulo 65536. -/
theorem indexLoadAndAdd : Obligations.IndexLoadAndAdd := by
  intro nnn x s
  refine ⟨⟨_, rfl, onlyIndex_setI s (zext16 nnn), toNat_zext16 nnn (by decide)⟩,
    ⟨_, rfl, onlyIndex_setI s (s.i + zext16 (s.reg x)), ?_⟩⟩
  rw [State.setI_i, BitVec.toNat_add, toNat_zext16 (s.reg x) (by decide)]

end Sys2Proof.Claims
end

section
/-! PROOFS. Clearing the screen (43_display.md R241): one write of the framebuffer. -/

namespace Sys2Proof.Claims

open Sys2Proof.Machine

/-- Settles O45: memory, parameters and register file are fields other than the framebuffer, and the
framebuffer written has every pixel off. -/
theorem clearScreen : Obligations.ClearScreen := by
  intro s
  refine ⟨{ s with fb := Machine.clearScreen }, rfl, rfl, ?_, ?_, ?_⟩
  · exact State.byteAt_congr rfl rfl
  · exact State.reg_congr rfl
  · exact pixel_clearScreen

end Sys2Proof.Claims
end

section
/-! PROOFS. Copies between a register and a timer (44_keys_timers.md R263 to R265): one register
write, and two writes of a timer, a field that neither memory nor the register file reads. -/

namespace Sys2Proof.Claims

open Sys2Proof.Machine

/-- Settles O52: the first is a register write of `DT`; the other two write a timer, which leaves
memory, parameters and register file as they were. -/
theorem timerCopies : Obligations.TimerCopies := by
  intro x s
  exact ⟨⟨s.setReg x s.dt, rfl, onlyRegs_setReg s x s.dt, State.reg_setReg_same s x s.dt⟩,
    ⟨{ s with dt := s.reg x }, rfl, rfl, State.byteAt_congr rfl rfl, State.reg_congr rfl⟩,
    ⟨{ s with st := s.reg x }, rfl, rfl, State.byteAt_congr rfl rfl, State.reg_congr rfl⟩⟩

end Sys2Proof.Claims
end

section
/-! PROOFS. The timers' tick (60_exceptions.md R287): one byte function applied to two timers, where
natural subtraction is the clamp at 0. -/

namespace Sys2Proof.Claims

open Sys2Proof.Machine

theorem tickByte_toNat (t : Byte) : (tickByte t).toNat = t.toNat - 1 := by
  unfold tickByte
  split
  next hpos =>
    have hle : (1 : Byte) ≤ t := BitVec.le_def.mpr hpos
    exact BitVec.toNat_sub_of_le hle
  next hzero => omega

/-- Settles O55: the transaction is the record update `tickTimers` in every state, faulted or not, and
each of the two timers it writes is the old one's `tickByte`. -/
theorem tickDecrementsClamped : Obligations.TickDecrementsClamped := by
  intro s
  exact ⟨tickTimers s, rfl, rfl, tickByte_toNat s.dt, tickByte_toNat s.st⟩

end Sys2Proof.Claims
end

section
/-! PROOFS. The load that fails (70_reset_and_hazards.md R322, R323): the size is tested before the
first byte is stored, so no byte of a refused image reaches memory. -/

namespace Sys2Proof.Claims

open Sys2Proof.Machine

theorem load_of_length_gt {image : List Byte} (s : State) (h : image.length > 3584) :
    load image s = (s, .failure) :=
  if_pos h

@[simp] theorem loadSource_none (s : State) : loadSource none s = (s, .failure) := rfl

/-- Settles O58: an image longer than the program area takes the branch of `load` that returns the
state as it was, and a source that cannot be read never reaches `load`. -/
theorem failedLoadChangesNothing : Obligations.FailedLoadChangesNothing := by
  unfold Obligations.FailedLoadChangesNothing
  constructor
  · intro image s htoolong
    exact load_of_length_gt s htoolong
  · intro s
    exact loadSource_none s

end Sys2Proof.Claims
end

section
/-! PROOFS. Decoding of an encoded instruction (30_encoding.md R91 to R102): the two bytes are the
word again, the packed word's fields are the operands, and a family default's selector is in no named
row. -/

namespace Sys2Proof.Claims

open Sys2Proof.Machine

theorem decodeBytes_cons_cons (hi lo : Byte) (rest : List Byte) :
    decodeBytes (hi :: lo :: rest) = .ok (decodeWord (wordOfBytes hi lo), rest) := rfl

/-- A selector that family 0x0 does not assign takes the last line of its decoder, the default. -/
theorem decode0_of_unassigned {w : Word} (h : (!assigned0.contains (fieldN w)) = true) :
    decode0 w = .nop0 (fieldNNN w) := by
  unfold decode0
  split <;> simp_all [assigned0]

theorem decode8_of_unassigned {w : Word} (h : (!assigned8.contains (fieldN w)) = true) :
    decode8 w = .nop8 (fieldNNN w) := by
  unfold decode8
  split <;> simp_all [assigned8]

theorem decodeE_of_unassigned {w : Word} (h : (!assignedE.contains (fieldN w)) = true) :
    decodeE w = .nopE (fieldNNN w) := by
  unfold decodeE
  split <;> simp_all [assignedE]

theorem decodeF_of_unassigned {w : Word} (h : (!assignedF.contains (fieldKK w)) = true) :
    decodeF w = .nopF (fieldNNN w) := by
  unfold decodeF
  split <;> simp_all [assignedF]

theorem decodeWord_encode (i : Instr) (h : i.WellFormed) : decodeWord (encode i) = i := by
  cases i with
  | nop0 u =>
    have hsel : (!assigned0.contains (fieldN (packNNN 0x0#4 u))) = true := by
      rw [fieldN_packNNN]; exact h
    simp [encode, decodeWord, decode0_of_unassigned hsel]
  | nop8 u =>
    have hsel : (!assigned8.contains (fieldN (packNNN 0x8#4 u))) = true := by
      rw [fieldN_packNNN]; exact h
    simp [encode, decodeWord, decode8_of_unassigned hsel]
  | nopE u =>
    have hsel : (!assignedE.contains (fieldN (packNNN 0xE#4 u))) = true := by
      rw [fieldN_packNNN]; exact h
    simp [encode, decodeWord, decodeE_of_unassigned hsel]
  | nopF u =>
    have hsel : (!assignedF.contains (fieldKK (packNNN 0xF#4 u))) = true := by
      rw [fieldKK_packNNN]; exact h
    simp [encode, decodeWord, decodeF_of_unassigned hsel]
  | cls | ret => decide
  | _ => simp [encode, decodeWord, decode8, decodeE, decodeF]

/-- Settles O1: the bytes join to the encoded word, which decodes to its instruction. -/
theorem decodeOfEncodeIsIdentity : Obligations.DecodeOfEncodeIsIdentity := by
  intro i rest hwf
  rw [encodeBytes, List.cons_append, List.cons_append, List.nil_append, decodeBytes_cons_cons,
    wordOfBytes_hi_lo, decodeWord_encode i hwf]

end Sys2Proof.Claims
end

section
/-! PROOFS. Encoding of a decoded word, and the decoder as the opcode map (30_encoding.md R91 to
R102). A word is its fields packed; a mask drops some of the fields; so a decoded instruction's word, packed
from the fields the instruction kept, agrees with the word on the kept bits. -/

namespace Sys2Proof.Claims

open Sys2Proof.Machine

/-! A word is its fields, packed. -/

theorem packNNN_fields (w : Word) : packNNN (fieldOp w) (fieldNNN w) = w := by
  refine BitVec.eq_of_getLsbD_eq fun k hk => ?_
  rw [getLsbD_packNNN, getLsbD_fieldOp, getLsbD_fieldNNN]
  interval_cases k <;> simp

theorem packXKK_fields (w : Word) : packXKK (fieldOp w) (fieldX w) (fieldKK w) = w := by
  refine BitVec.eq_of_getLsbD_eq fun k hk => ?_
  rw [getLsbD_packXKK, getLsbD_fieldOp, getLsbD_fieldX, getLsbD_fieldKK]
  interval_cases k <;> simp

theorem packXYN_fields (w : Word) : packXYN (fieldOp w) (fieldX w) (fieldY w) (fieldN w) = w := by
  refine BitVec.eq_of_getLsbD_eq fun k hk => ?_
  rw [getLsbD_packXYN, getLsbD_fieldOp, getLsbD_fieldX, getLsbD_fieldY, getLsbD_fieldN]
  interval_cases k <;> simp

/-! What a mask of whole nibbles keeps of a word. -/

theorem and_maskOpN (w : Word) : w &&& 0xF00F#16 = packXYN (fieldOp w) 0 0 (fieldN w) := by
  refine BitVec.eq_of_getLsbD_eq fun k hk => ?_
  rw [BitVec.getLsbD_and, getLsbD_packXYN, getLsbD_fieldOp, getLsbD_fieldN]
  interval_cases k <;> simp

theorem and_maskOpXN (w : Word) :
    w &&& 0xFF0F#16 = packXYN (fieldOp w) (fieldX w) 0 (fieldN w) := by
  refine BitVec.eq_of_getLsbD_eq fun k hk => ?_
  rw [BitVec.getLsbD_and, getLsbD_packXYN, getLsbD_fieldOp, getLsbD_fieldX, getLsbD_fieldN]
  interval_cases k <;> simp

theorem and_maskOpXY (w : Word) :
    w &&& 0xFFF0#16 = packXYN (fieldOp w) (fieldX w) (fieldY w) 0 := by
  refine BitVec.eq_of_getLsbD_eq fun k hk => ?_
  rw [BitVec.getLsbD_and, getLsbD_packXYN, getLsbD_fieldOp, getLsbD_fieldX, getLsbD_fieldY]
  interval_cases k <;> simp

/-- `i` is well-formed and its word agrees with `w` on every bit `i` keeps. -/
def Represents (i : Instr) (w : Word) : Prop :=
  i.WellFormed ∧ encode i &&& i.keptBits = w &&& i.keptBits

theorem represents_of_encode_eq {i : Instr} {w : Word} (hwf : i.WellFormed) (h : encode i = w) :
    Represents i w := ⟨hwf, by rw [h]⟩

theorem represents_decode0 {w : Word} (hop : fieldOp w = 0x0#4) : Represents (decode0 w) w := by
  unfold decode0
  split
  case h_1 hn => exact ⟨rfl, by simp only [Instr.keptBits, and_maskOpN, hop, hn]; decide⟩
  case h_2 hn => exact ⟨rfl, by simp only [Instr.keptBits, and_maskOpN, hop, hn]; decide⟩
  case h_3 h0 hE =>
    have hpack : packNNN 0x0#4 (fieldNNN w) = w := hop ▸ packNNN_fields w
    refine represents_of_encode_eq ?_ hpack
    have hsel : selN (fieldNNN w) = fieldN w := by rw [← fieldN_packNNN 0x0#4, hpack]
    simp_all [Instr.WellFormed, Instr.wf, assigned0]

theorem represents_decode8 {w : Word} (hop : fieldOp w = 0x8#4) : Represents (decode8 w) w := by
  have hpack {n : Nibble} (hn : fieldN w = n) : packXYN 0x8#4 (fieldX w) (fieldY w) n = w :=
    hop ▸ hn ▸ packXYN_fields w
  unfold decode8
  split
  case h_10 =>
    have hpack : packNNN 0x8#4 (fieldNNN w) = w := hop ▸ packNNN_fields w
    refine represents_of_encode_eq ?_ hpack
    have hsel : selN (fieldNNN w) = fieldN w := by rw [← fieldN_packNNN 0x8#4, hpack]
    simp_all [Instr.WellFormed, Instr.wf, assigned8]
  all_goals exact represents_of_encode_eq rfl (hpack ‹_›)

theorem represents_decodeE {w : Word} (hop : fieldOp w = 0xE#4) : Represents (decodeE w) w := by
  unfold decodeE
  split
  case h_1 hn => exact ⟨rfl, by simp [Instr.keptBits, encode, and_maskOpXN, hop, hn]⟩
  case h_2 hn => exact ⟨rfl, by simp [Instr.keptBits, encode, and_maskOpXN, hop, hn]⟩
  case h_3 =>
    have hpack : packNNN 0xE#4 (fieldNNN w) = w := hop ▸ packNNN_fields w
    refine represents_of_encode_eq ?_ hpack
    have hsel : selN (fieldNNN w) = fieldN w := by rw [← fieldN_packNNN 0xE#4, hpack]
    simp_all [Instr.WellFormed, Instr.wf, assignedE]

theorem represents_decodeF {w : Word} (hop : fieldOp w = 0xF#4) : Represents (decodeF w) w := by
  have hpack {kk : Byte} (hkk : fieldKK w = kk) : packXKK 0xF#4 (fieldX w) kk = w :=
    hop ▸ hkk ▸ packXKK_fields w
  unfold decodeF
  split
  case h_10 =>
    have hpack : packNNN 0xF#4 (fieldNNN w) = w := hop ▸ packNNN_fields w
    refine represents_of_encode_eq ?_ hpack
    have hsel : selKK (fieldNNN w) = fieldKK w := by rw [← fieldKK_packNNN 0xF#4, hpack]
    simp_all [Instr.WellFormed, Instr.wf, assignedF]
  all_goals exact represents_of_encode_eq rfl (hpack ‹_›)

theorem represents_decodeWord (w : Word) : Represents (decodeWord w) w := by
  have hNNN {op : Nibble} (hop : fieldOp w = op) : packNNN op (fieldNNN w) = w :=
    hop ▸ packNNN_fields w
  have hXKK {op : Nibble} (hop : fieldOp w = op) : packXKK op (fieldX w) (fieldKK w) = w :=
    hop ▸ packXKK_fields w
  unfold decodeWord
  split
  case h_1 hop => exact represents_decode0 hop
  case h_9 hop => exact represents_decode8 hop
  case h_15 hop => exact represents_decodeE hop
  case h_16 =>
    refine represents_decodeF ?_
    clear hNNN hXKK
    generalize fieldOp w = op at *
    revert op
    decide
  case h_6 hop => exact ⟨rfl, by simp [Instr.keptBits, encode, and_maskOpXY, hop]⟩
  case h_10 hop => exact ⟨rfl, by simp [Instr.keptBits, encode, and_maskOpXY, hop]⟩
  case h_14 hop =>
    have hXYN : packXYN 0xD#4 (fieldX w) (fieldY w) (fieldN w) = w := hop ▸ packXYN_fields w
    exact represents_of_encode_eq rfl hXYN
  case h_2 | h_3 | h_11 | h_12 => exact represents_of_encode_eq rfl (hNNN ‹_›)
  case h_4 | h_5 | h_7 | h_8 | h_13 => exact represents_of_encode_eq rfl (hXKK ‹_›)

/-- Settles O2: `represents_decodeWord`, by the families. -/
theorem encodeOfDecodeKeepsExaminedBits : Obligations.EncodeOfDecodeKeepsExaminedBits :=
  represents_decodeWord

/-! The rows of the opcode map. -/

theorem encodedInRow (i : Instr) : Laws.EncodedInRow.Statement i := by
  cases i with
  | cls => exact Laws.EncodedInRow.cls
  | ret => exact Laws.EncodedInRow.ret
  | jp nnn => exact Laws.EncodedInRow.jp nnn
  | call nnn => exact Laws.EncodedInRow.call nnn
  | seImm x kk => exact Laws.EncodedInRow.seImm x kk
  | sneImm x kk => exact Laws.EncodedInRow.sneImm x kk
  | seReg x y => exact Laws.EncodedInRow.seReg x y
  | ldImm x kk => exact Laws.EncodedInRow.ldImm x kk
  | addImm x kk => exact Laws.EncodedInRow.addImm x kk
  | ldReg x y => exact Laws.EncodedInRow.ldReg x y
  | orReg x y => exact Laws.EncodedInRow.orReg x y
  | andReg x y => exact Laws.EncodedInRow.andReg x y
  | xorReg x y => exact Laws.EncodedInRow.xorReg x y
  | addReg x y => exact Laws.EncodedInRow.addReg x y
  | subReg x y => exact Laws.EncodedInRow.subReg x y
  | shr x y => exact Laws.EncodedInRow.shr x y
  | subnReg x y => exact Laws.EncodedInRow.subnReg x y
  | shl x y => exact Laws.EncodedInRow.shl x y
  | sneReg x y => exact Laws.EncodedInRow.sneReg x y
  | ldI nnn => exact Laws.EncodedInRow.ldI nnn
  | jpV0 nnn => exact Laws.EncodedInRow.jpV0 nnn
  | rnd x kk => exact Laws.EncodedInRow.rnd x kk
  | drw x y n => exact Laws.EncodedInRow.drw x y n
  | skp x => exact Laws.EncodedInRow.skp x
  | sknp x => exact Laws.EncodedInRow.sknp x
  | ldVxDt x => exact Laws.EncodedInRow.ldVxDt x
  | ldVxK x => exact Laws.EncodedInRow.ldVxK x
  | ldDtVx x => exact Laws.EncodedInRow.ldDtVx x
  | ldStVx x => exact Laws.EncodedInRow.ldStVx x
  | addI x => exact Laws.EncodedInRow.addI x
  | ldF x => exact Laws.EncodedInRow.ldF x
  | ldB x => exact Laws.EncodedInRow.ldB x
  | ldMemVx x => exact Laws.EncodedInRow.ldMemVx x
  | ldVxMem x => exact Laws.EncodedInRow.ldVxMem x
  | nop0 u => exact Laws.EncodedInRow.nop0 u
  | nop8 u => exact Laws.EncodedInRow.nop8 u
  | nopE u => exact Laws.EncodedInRow.nopE u
  | nopF u => exact Laws.EncodedInRow.nopF u

/-- A row's fixed bits are among the bits its instructions keep. -/
theorem mask_and_keptBits {i : Instr} {r : OpcodeRow}
    (hr : (namedRows ++ familyRows)[i.row]? = some r) : i.keptBits &&& r.mask = r.mask := by
  have hrow : (namedRows ++ familyRows)[i.row]?.all (fun q => i.keptBits &&& q.mask == q.mask) := by
    cases i <;> simp [namedRows, familyRows, Instr.row, Instr.keptBits]
  rw [hr] at hrow
  simpa using hrow

/-- A word fits the row of the instruction it decodes to: they agree on the kept bits, the row's
among them, and the instruction's own word fits. -/
theorem fits_row_decodeWord {w : Word} {r : OpcodeRow}
    (hr : (namedRows ++ familyRows)[(decodeWord w).row]? = some r) : r.fits w = true := by
  have hfits := encodedInRow (decodeWord w) r hr
  have hkept := (represents_decodeWord w).2
  have hmask := mask_and_keptBits hr
  simp only [OpcodeRow.fits, beq_iff_eq] at hfits ⊢
  rw [← hfits, ← hmask, ← BitVec.and_assoc, ← BitVec.and_assoc, hkept]

/-- What a row's bits say of a word's fields. -/
theorem fields_of_fits {r : OpcodeRow} {w : Word} (h : r.fits w = true) :
    fieldOp w &&& fieldOp r.mask = fieldOp r.bits ∧ fieldN w &&& fieldN r.mask = fieldN r.bits ∧
      fieldKK w &&& fieldKK r.mask = fieldKK r.bits := by
  simp only [OpcodeRow.fits, beq_iff_eq] at h
  simp [← h, fieldOp, fieldN, fieldKK, BitVec.extractLsb'_and]

/-- No word fits both of two rows whose bits differ where both masks look. -/
def Disagree (a b : OpcodeRow) : Prop := a.bits &&& b.mask ≠ b.bits &&& a.mask

theorem not_fits_both_of_disagree {a b : OpcodeRow} {w : Word} (h : Disagree a b)
    (ha : a.fits w = true) : ¬ b.fits w = true := by
  intro hb
  simp only [OpcodeRow.fits, beq_iff_eq] at ha hb
  apply h
  rw [← ha, ← hb, BitVec.and_assoc, BitVec.and_assoc, BitVec.and_comm a.mask]

/-- In a list of rows that disagree, a word fits at most one. -/
theorem index_eq_of_fits {rows : List OpcodeRow} (hrows : rows.Pairwise Disagree) {w : Word}
    {i j : Nat} {a b : OpcodeRow} (hi : rows[i]? = some a) (hj : rows[j]? = some b)
    (ha : a.fits w = true) (hb : b.fits w = true) : i = j := by
  obtain ⟨hi', rfl⟩ := List.getElem?_eq_some_iff.mp hi
  obtain ⟨hj', rfl⟩ := List.getElem?_eq_some_iff.mp hj
  have hdis := List.pairwise_iff_getElem.mp hrows
  rcases Nat.lt_trichotomy i j with hlt | heq | hgt
  · exact absurd hb (not_fits_both_of_disagree (hdis i j hi' hj' hlt) ha)
  · exact heq
  · exact absurd ha (not_fits_both_of_disagree (hdis j i hj' hi' hgt) hb)

theorem namedRows_disagree : namedRows.Pairwise Disagree := by
  unfold Disagree; decide

theorem familyRows_disagree : familyRows.Pairwise Disagree := by
  unfold Disagree; decide

/-- A named row of a family that selects by `n` asks for one of the selectors the family assigns. -/
theorem fieldN_assigned_of_fits {op : Nibble} {assigned : List Nibble}
    (hrows : ∀ q ∈ namedRows, op &&& fieldOp q.mask = fieldOp q.bits →
      fieldN q.mask = 0xF#4 ∧ assigned.contains (fieldN q.bits) = true)
    {q : OpcodeRow} (hq : q ∈ namedRows) {w : Word} (hop : fieldOp w = op) (h : q.fits w = true) :
    assigned.contains (fieldN w) = true := by
  obtain ⟨hopq, hn, -⟩ := fields_of_fits h
  obtain ⟨hmask, hin⟩ := hrows q hq (hop ▸ hopq)
  rw [hmask, show (0xF#4 : Nibble) = BitVec.allOnes 4 from rfl, BitVec.and_allOnes] at hn
  exact hn ▸ hin

/-- The same of family 0xF, which selects by `kk`. -/
theorem fieldKK_assigned_of_fits {q : OpcodeRow} (hq : q ∈ namedRows) {w : Word}
    (hop : fieldOp w = 0xF#4) (h : q.fits w = true) : assignedF.contains (fieldKK w) = true := by
  have hrows : ∀ q ∈ namedRows, 0xF#4 &&& fieldOp q.mask = fieldOp q.bits →
      fieldKK q.mask = 0xFF#8 ∧ assignedF.contains (fieldKK q.bits) = true := by decide
  obtain ⟨hopq, -, hkk⟩ := fields_of_fits h
  obtain ⟨hmask, hin⟩ := hrows q hq (hop ▸ hopq)
  rw [hmask, show (0xFF#8 : Byte) = BitVec.allOnes 8 from rfl, BitVec.and_allOnes] at hkk
  exact hkk ▸ hin

/-- The word of a well-formed family default fits no named row. -/
theorem not_fits_encode_default {i : Instr} (hwf : i.WellFormed) (hrow : 34 ≤ i.row)
    {q : OpcodeRow} (hq : q ∈ namedRows) : q.fits (encode i) = false := by
  rw [← Bool.not_eq_true]
  intro h
  cases i with
  | nop0 u =>
    have := fieldN_assigned_of_fits (assigned := assigned0) (by decide) hq
      (fieldOp_packNNN 0x0#4 u) h
    simp_all [encode, Instr.WellFormed, Instr.wf]
  | nop8 u =>
    have := fieldN_assigned_of_fits (assigned := assigned8) (by decide) hq
      (fieldOp_packNNN 0x8#4 u) h
    simp_all [encode, Instr.WellFormed, Instr.wf]
  | nopE u =>
    have := fieldN_assigned_of_fits (assigned := assignedE) (by decide) hq
      (fieldOp_packNNN 0xE#4 u) h
    simp_all [encode, Instr.WellFormed, Instr.wf]
  | nopF u =>
    have := fieldKK_assigned_of_fits hq (fieldOp_packNNN 0xF#4 u) h
    simp_all [encode, Instr.WellFormed, Instr.wf]
  | _ => simp [Instr.row] at hrow

theorem encode_decodeWord_of_default {w : Word} (hrow : 34 ≤ (decodeWord w).row) :
    encode (decodeWord w) = w := by
  have hall : ∀ i : Instr, 34 ≤ i.row → i.keptBits = BitVec.allOnes 16 := by
    intro i h
    cases i with
    | nop0 u | nop8 u | nopE u | nopF u => rfl
    | _ => simp [Instr.row] at h
  have hkept := (represents_decodeWord w).2
  rwa [hall _ hrow, BitVec.and_allOnes, BitVec.and_allOnes] at hkept

theorem row_lt (i : Instr) : i.row < 38 := by cases i <;> simp [Instr.row]

/-- The row of a decoded word is a named row the word fits, or a family row the word fits while it
fits no named row. -/
theorem decodeWord_row_cases (w : Word) :
    (∃ r, namedRows[(decodeWord w).row]? = some r ∧ r.fits w = true) ∨
    ∃ k r, (decodeWord w).row = 34 + k ∧ familyRows[k]? = some r ∧ r.fits w = true ∧
      ∀ q ∈ namedRows, q.fits w = false := by
  have hlt := row_lt (decodeWord w)
  rcases Nat.lt_or_ge (decodeWord w).row namedRows.length with hnamed | hdefault
  · have hr := List.getElem?_eq_getElem hnamed
    exact .inl ⟨_, hr, fits_row_decodeWord (by rw [List.getElem?_append_left hnamed, hr])⟩
  · have hlen : namedRows.length = 34 := rfl
    obtain ⟨k, hk⟩ := Nat.exists_eq_add_of_le hdefault
    have hr := List.getElem?_eq_getElem (l := familyRows) (i := k)
      (by rw [show familyRows.length = 4 from rfl]; omega)
    refine .inr ⟨k, _, hk, hr, fits_row_decodeWord ?_, fun q hq => ?_⟩
    · rw [List.getElem?_append_right hdefault, hk, Nat.add_sub_cancel_left, hr]
    · have := not_fits_encode_default (represents_decodeWord w).1 hdefault hq
      rwa [encode_decodeWord_of_default hdefault] at this

/-- Settles O3: a decoded word fits its row, and rows of one list exclude each other. -/
theorem decoderFollowsOpcodeMap : Obligations.DecoderFollowsOpcodeMap := by
  refine ⟨fun w k r hr => ?_, fun w k r hr => ?_⟩
  · have hmem := List.mem_of_getElem? hr
    rcases decodeWord_row_cases w with ⟨r', hr', hfit⟩ | ⟨k', _, hrow, -, -, hnone⟩
    · constructor
      · intro h
        exact index_eq_of_fits namedRows_disagree hr' hr hfit h
      · rintro rfl
        obtain rfl := Option.some.inj (hr'.symm.trans hr)
        exact hfit
    · have hk : k < 34 := (List.getElem?_eq_some_iff.mp hr).1
      rw [hnone r hmem]
      constructor
      · exact fun h => nomatch h
      · omega
  · rcases decodeWord_row_cases w with ⟨r', hr', hfit⟩ | ⟨k', r', hrow, hr', hfit, hnone⟩
    · have hlt : (decodeWord w).row < 34 := (List.getElem?_eq_some_iff.mp hr').1
      constructor
      · omega
      · rintro ⟨-, hnone⟩
        exact absurd hfit (by rw [hnone r' (List.mem_of_getElem? hr')]; decide)
    · constructor
      · intro h
        obtain rfl : k' = k := by omega
        obtain rfl := Option.some.inj (hr'.symm.trans hr)
        exact ⟨hfit, hnone⟩
      · rintro ⟨h, -⟩
        rw [hrow, index_eq_of_fits familyRows_disagree hr' hr hfit h]

/-- Settles O4: the decoder computes. -/
theorem specWordsDecode : Obligations.SpecWordsDecode := by
  unfold Obligations.SpecWordsDecode
  decide

end Sys2Proof.Claims
end

section
/-! PROOFS. What `exec` can do, said once: every instruction in every state answers a next state, and
that state is one of twelve effects, each naming the fields it may change. The frame statements, the
faults and the invariant are read off it. -/

namespace Sys2Proof.Claims

open Sys2Proof.Machine

/-- The faults an instruction may raise, with their condition and info (60_exceptions.md R280). -/
inductive FaultsWith (s : State) : Instr → FaultCause → Word → Prop
  | drw {x y n} (hrows : 0 < n.toNat) (h : s.i.toNat + n.toNat - 1 > 0xFFF) :
      FaultsWith s (.drw x y n) .dataBounds (firstOutside (indexAddr s))
  | ldB {x} (h : s.i.toNat + 2 > 0xFFF) :
      FaultsWith s (.ldB x) .dataBounds (firstOutside (indexAddr s))
  | ldMemVx {x} (h : s.i.toNat + x.toNat > 0xFFF) :
      FaultsWith s (.ldMemVx x) .dataBounds (firstOutside (indexAddr s))
  | ldVxMem {x} (h : s.i.toNat + x.toNat > 0xFFF) :
      FaultsWith s (.ldVxMem x) .dataBounds (firstOutside (indexAddr s))
  | call {nnn} (h : s.sp.val = 16) : FaultsWith s (.call nnn) .stackOverflow 16
  | ret (h : s.sp.val = 0) : FaultsWith s .ret .stackUnderflow 0
  | skp {x} (h : (s.reg x).toNat > 15) : FaultsWith s (.skp x) .keyRange (zext16 (s.reg x))
  | sknp {x} (h : (s.reg x).toNat > 15) : FaultsWith s (.sknp x) .keyRange (zext16 (s.reg x))

/-- Where an instruction fetched at `p` may leave `PC`: as 10_state.md R25 says, and, when the fetch
was in bounds, within the bound of R26. -/
def PcTarget (i : Instr) (p q : Word) : Prop :=
  PcAfter i p q ∧ (p.toNat ≤ 0xFFE → q.toNat ≤ 0x10FE)

/-- The registers an instruction does not write stay (10_state.md R22). -/
def KeepsOtherRegs (i : Instr) (s t : State) : Prop := ∀ j, ¬ WritesReg i j → t.reg j = s.reg j

/-- What executing `i` in `s` may leave, by the fields that change. -/
inductive Effect (i : Instr) (s t : State) : Prop
  /-- general registers and `I` -/
  | datapath (ht : t = { s with v := t.v, i := t.i }) (hreg : KeepsOtherRegs i s t)
  /-- `PC` alone -/
  | transfer (ht : t = { s with pc := t.pc }) (hpc : ∀ p, s.pc = p + 2 → PcTarget i p t.pc)
  /-- CALL with room on the stack -/
  | call (nnn : Addr12) (hi : i = .call nnn) (hroom : s.sp.val < 16)
      (ht : t = { s with pc := zext16 nnn, stack := s.stack.set s.sp.val s.pc, sp := t.sp })
      (hsp : t.sp.val = s.sp.val + 1)
  /-- RET with an entry on the stack -/
  | ret (hi : i = .ret) (hsome : 0 < s.sp.val)
      (ht : t = { s with pc := s.stack[s.sp.val - 1], sp := t.sp }) (hsp : t.sp.val + 1 = s.sp.val)
  /-- RND -/
  | random (hi : ∃ x kk, i = .rnd x kk) (ht : t = { s with v := t.v, draws := s.draws + 1 })
      (hreg : KeepsOtherRegs i s t)
  /-- LD DT, Vx -/
  | delayTimer (hi : ∃ x, i = .ldDtVx x) (ht : t = { s with dt := t.dt })
  /-- LD ST, Vx -/
  | soundTimer (hi : ∃ x, i = .ldStVx x) (ht : t = { s with st := t.st })
  /-- CLS and DRW -/
  | screen (hi : i = .cls ∨ ∃ x y n, i = .drw x y n) (ht : t = { s with v := t.v, fb := t.fb })
      (hreg : KeepsOtherRegs i s t)
  /-- LD B, Vx and LD [I], Vx with the bytes inside memory -/
  | store (hi : (∃ x, i = .ldB x) ∨ ∃ x, i = .ldMemVx x)
      (ht : t = { s with mem := t.mem, i := t.i }) (hwf : s.mem.wf s.cfg → t.mem.wf s.cfg)
  /-- LD Vx, K with a key pressed -/
  | keyReport (hi : ∃ x, i = .ldVxK x) (ht : t = { s with v := t.v, key := t.key })
      (hreg : KeepsOtherRegs i s t) (hkey : s.cfg.fx0aClearKey = false → t.key = s.key)
  /-- a fault -/
  | fault (c : FaultCause) (info : Word) (hc : FaultsWith s i c info)
      (ht : t = takeFault c (s.pc - 2) (some s.ir) info s)

/-! The effects of the shared writes. -/

theorem effect_setReg {i : Instr} {x : Nibble} (hi : ∀ j, j = x → WritesReg i j) (b : Byte)
    (s : State) : Effect i s (s.setReg x b) :=
  .datapath rfl fun j hj => State.reg_setReg_other s b fun e => hj (hi j e)

theorem effect_setI (i : Instr) (s : State) (w : Word) : Effect i s (s.setI w) :=
  .datapath rfl fun _ _ => rfl

theorem onlyRegs_commitFlag (s : State) (x : Nibble) (res : Byte) (f : Bool) :
    OnlyRegs (fun j => j = x ∨ j = 0xF#4) s (commitFlag x res f s) := by
  refine onlyRegs_of_eq ?_ fun j hj => ?_
  · apply State.ext <;> simp
  · obtain ⟨hx, hF⟩ := not_or.mp hj
    rw [reg_commitFlag, if_neg fun h => hF h.1, if_neg hx]

theorem effect_commitFlag {i : Instr} {x : Nibble} (hi : ∀ j, j = x ∨ j = 0xF#4 → WritesReg i j)
    (res : Byte) (f : Bool) (s : State) : Effect i s (commitFlag x res f s) := by
  obtain ⟨ht, -, hreg⟩ := onlyRegs_commitFlag s x res f
  exact .datapath (by rw [ht]) fun j hj => hreg j fun e => hj (hi j e)

theorem toNat_add_two {p : Word} (h : p.toNat ≤ 0x1000) : (p + 2).toNat = p.toNat + 2 := by
  bv_omega

theorem effect_skipIf {i : Instr} (hi : ∀ p q, q = p + 2 ∨ q = p + 4 → PcAfter i p q) (c : Bool)
    (s : State) : Effect i s (skipIf c s) := by
  refine .transfer (onlyPc_skipIf c s).1 fun p hp => ?_
  have hfour : p + 2 + 2 = p + 4 := by bv_omega
  rw [skipIf_pc, hp, hfour]
  cases c with
  | false => exact ⟨hi p _ (.inl rfl), fun hb => by simp; bv_omega⟩
  | true => exact ⟨hi p _ (.inr rfl), fun hb => by simp; bv_omega⟩

/-- An absolute transfer within the bound, by an instruction whose `PC` R25 leaves to its own rule. -/
theorem effect_setPc {i : Instr} {s : State} {q : Word} (hi : ∀ p q, PcAfter i p q)
    (hq : q.toNat ≤ 0x10FE) : Effect i s (s.setPc q) :=
  .transfer rfl fun p _ => ⟨hi p q, fun _ => hq⟩

theorem effect_jp (nnn : Addr12) (s : State) : Effect (.jp nnn) s (s.setPc (zext16 nnn)) := by
  refine effect_setPc (fun _ _ => trivial) ?_
  have := nnn.isLt
  rw [toNat_zext16 nnn (by decide)]
  omega

/-- The exact sum: a byte and 12 bits do not wrap in 16 bits. -/
theorem toNat_jpV0_target (b : Byte) (nnn : Addr12) :
    (zext16 b + zext16 nnn).toNat = b.toNat + nnn.toNat := by
  have hb := b.isLt
  have hn := nnn.isLt
  rw [BitVec.toNat_add, toNat_zext16 b (by decide), toNat_zext16 nnn (by decide)]
  omega

theorem effect_jpV0 (nnn : Addr12) (s : State) :
    Effect (.jpV0 nnn) s (s.setPc (zext16 (s.reg 0x0#4) + zext16 nnn)) := by
  refine effect_setPc (fun _ _ => trivial) ?_
  have hb := (s.reg 0x0#4).isLt
  have hn := nnn.isLt
  rw [toNat_jpV0_target]
  omega

/-! The effects of the instructions that check something first. -/

theorem exists_effect_call (nnn : Addr12) (s : State) :
    ∃ t, exec (.call nnn) s = .next t ∧ Effect (.call nnn) s t := by
  rcases Nat.lt_or_ge s.sp.val 16 with hroom | hfull
  · exact ⟨_, exec_call_room nnn s hroom, .call nnn rfl hroom rfl rfl⟩
  · have hfull : s.sp.val = 16 := by omega
    exact ⟨_, exec_call_full nnn s hfull, .fault _ _ (.call hfull) rfl⟩

theorem exists_effect_ret (s : State) : ∃ t, exec .ret s = .next t ∧ Effect .ret s t := by
  rcases Nat.eq_zero_or_pos s.sp.val with hempty | hsome
  · exact ⟨_, exec_ret_empty s hempty, .fault _ _ (.ret hempty) rfl⟩
  · exact ⟨_, exec_ret_some s hsome, .ret rfl hsome rfl (Nat.sub_add_cancel hsome)⟩

theorem exists_effect_drw (x y n : Nibble) (s : State) :
    ∃ t, exec (.drw x y n) s = .next t ∧ Effect (.drw x y n) s t := by
  by_cases hin : n.toNat = 0 ∨ indexAddr s + n.toNat - 1 ≤ 0xFFF
  · refine ⟨_, exec_drw_inside x y n s hin, .screen (.inr ⟨x, y, n, rfl⟩) rfl fun j hj => ?_⟩
    exact State.reg_setReg_other _ _ hj
  · obtain ⟨hrows, hout⟩ := not_or.mp hin
    have hout : indexAddr s + n.toNat - 1 > 0xFFF := Nat.not_le.mp hout
    exact ⟨_, exec_drw_outside x y n s hrows hout,
      .fault _ _ (.drw (Nat.pos_of_ne_zero hrows) hout) rfl⟩

theorem exists_effect_ldB (x : Nibble) (s : State) :
    ∃ t, exec (.ldB x) s = .next t ∧ Effect (.ldB x) s t := by
  rcases Nat.lt_or_ge 0xFFF (indexAddr s + 2) with hout | hin
  · exact ⟨_, exec_ldB_outside x s hout, .fault _ _ (.ldB hout) rfl⟩
  · refine ⟨_, exec_ldB_inside x s hin, .store (.inl ⟨x, rfl⟩) rfl fun hwf => ?_⟩
    exact Memory.wf_writeMany s.cfg _ s.mem _ hwf (by simp [bcdDigits]; omega)

theorem storeRegs_wf {x : Nibble} {s : State} (hwf : s.mem.wf s.cfg) (hin : indexLast x s ≤ 0xFFF) :
    (s.storeBytes (indexAddr s) (regsUpTo x s)).mem.wf s.cfg := by
  refine Memory.wf_writeMany s.cfg _ s.mem _ hwf ?_
  rw [length_regsUpTo]
  unfold indexAddr
  unfold indexLast at hin
  omega

theorem exists_effect_ldMemVx (x : Nibble) (s : State) :
    ∃ t, exec (.ldMemVx x) s = .next t ∧ Effect (.ldMemVx x) s t := by
  rcases Nat.lt_or_ge 0xFFF (indexLast x s) with hout | hin
  · exact ⟨_, exec_ldMemVx_outside x s hout, .fault _ _ (.ldMemVx hout) rfl⟩
  · refine ⟨_, exec_ldMemVx_inside x s hin, .store (.inr ⟨x, rfl⟩) ?_ fun hwf => ?_⟩
    · apply State.ext <;> simp
    · rw [stepIndex_mem]
      exact storeRegs_wf hwf hin

/-- What LD Vx, [I] leaves in each register (42_index_memory.md R215). -/
theorem reg_loadRegs_bytesAt (x : Nibble) (s : State) (a : Nat) (j : Nibble) :
    (loadRegs s 0 (s.bytesAt a (x.toNat + 1))).reg j =
      if j.toNat ≤ x.toNat then s.byteAt (a + j.toNat) else s.reg j := by
  have hx := x.isLt
  have hlen : (s.bytesAt a (x.toNat + 1)).length = x.toNat + 1 := Memory.length_readMany ..
  rw [reg_loadRegs _ s 0 j (by omega), hlen]
  by_cases hj : j.toNat ≤ x.toNat
  · rw [if_pos (by omega), if_pos hj]
    exact Memory.getD_readMany s.cfg s.mem a _ _ (by omega)
  · rw [if_neg (by omega), if_neg hj]

theorem exists_effect_ldVxMem (x : Nibble) (s : State) :
    ∃ t, exec (.ldVxMem x) s = .next t ∧ Effect (.ldVxMem x) s t := by
  rcases Nat.lt_or_ge 0xFFF (indexLast x s) with hout | hin
  · exact ⟨_, exec_ldVxMem_outside x s hout, .fault _ _ (.ldVxMem hout) rfl⟩
  · refine ⟨_, exec_ldVxMem_inside x s hin, .datapath ?_ fun j hj => ?_⟩
    · apply State.ext <;> simp
    · have hj : ¬ j.toNat ≤ x.toNat := hj
      rw [State.reg_congr (stepIndex_v x _), reg_loadRegs_bytesAt, if_neg hj]

theorem exists_effect_skp (x : Nibble) (s : State) :
    ∃ t, exec (.skp x) s = .next t ∧ Effect (.skp x) s t := by
  rcases Nat.lt_or_ge 15 (s.reg x).toNat with hout | hin
  · exact ⟨_, exec_skp_out x s hout, .fault _ _ (.skp hout) rfl⟩
  · exact ⟨_, exec_skp_in x s hin, effect_skipIf (fun _ _ => id) _ s⟩

theorem exists_effect_sknp (x : Nibble) (s : State) :
    ∃ t, exec (.sknp x) s = .next t ∧ Effect (.sknp x) s t := by
  rcases Nat.lt_or_ge 15 (s.reg x).toNat with hout | hin
  · exact ⟨_, exec_sknp_out x s hout, .fault _ _ (.sknp hout) rfl⟩
  · exact ⟨_, exec_sknp_in x s hin, effect_skipIf (fun _ _ => id) _ s⟩

theorem exists_effect_ldVxK (x : Nibble) (s : State) :
    ∃ t, exec (.ldVxK x) s = .next t ∧ Effect (.ldVxK x) s t := by
  cases h : s.leastPressed with
  | none =>
    refine ⟨_, exec_ldVxK_none x s h, .transfer rfl fun p hp => ⟨trivial, fun hb => ?_⟩⟩
    rw [State.setPc_pc, hp, BitVec.add_sub_cancel]
    omega
  | some k =>
    refine ⟨_, exec_ldVxK_some x k s h, ?_⟩
    have hother : ∀ j, j ≠ x → (s.setReg x (k.setWidth 8)).reg j = s.reg j :=
      fun j hj => State.reg_setReg_other s _ hj
    by_cases hclear : s.cfg.fx0aClearKey = true
    · rw [if_pos hclear]
      exact .keyReport ⟨x, rfl⟩ rfl hother fun hkeep => absurd hclear (by simp [hkeep])
    · rw [if_neg hclear]
      exact .keyReport ⟨x, rfl⟩ rfl hother fun _ => rfl

/-- Every instruction in every state answers a next state, with one of the effects. -/
theorem exists_effect (i : Instr) (s : State) : ∃ t, exec i s = .next t ∧ Effect i s t := by
  cases i with
  | cls => exact ⟨_, rfl, .screen (.inl rfl) rfl fun _ _ => rfl⟩
  | ret => exact exists_effect_ret s
  | jp nnn => exact ⟨_, rfl, effect_jp nnn s⟩
  | call nnn => exact exists_effect_call nnn s
  | jpV0 nnn => exact ⟨_, rfl, effect_jpV0 nnn s⟩
  | seImm x kk | sneImm x kk | seReg x y | sneReg x y =>
    exact ⟨_, rfl, effect_skipIf (fun _ _ => id) _ s⟩
  | ldImm x kk | addImm x kk | ldReg x y | orReg x y | andReg x y | xorReg x y | ldVxDt x =>
    exact ⟨_, rfl, effect_setReg (fun _ => id) _ s⟩
  | addReg x y | subReg x y | shr x y | subnReg x y | shl x y =>
    exact ⟨_, rfl, effect_commitFlag (fun _ => id) _ _ s⟩
  | rnd x kk =>
    exact ⟨_, rfl, .random ⟨x, kk, rfl⟩ rfl fun j hj => State.reg_setReg_other _ _ hj⟩
  | ldI nnn => exact ⟨_, rfl, effect_setI _ s _⟩
  | addI x | ldF x => exact ⟨_, rfl, effect_setI _ s _⟩
  | drw x y n => exact exists_effect_drw x y n s
  | skp x => exact exists_effect_skp x s
  | sknp x => exact exists_effect_sknp x s
  | ldVxK x => exact exists_effect_ldVxK x s
  | ldDtVx x => exact ⟨_, rfl, .delayTimer ⟨x, rfl⟩ rfl⟩
  | ldStVx x => exact ⟨_, rfl, .soundTimer ⟨x, rfl⟩ rfl⟩
  | ldB x => exact exists_effect_ldB x s
  | ldMemVx x => exact exists_effect_ldMemVx x s
  | ldVxMem x => exact exists_effect_ldVxMem x s
  | nop0 u | nop8 u | nopE u | nopF u => exact ⟨_, rfl, .datapath rfl fun _ _ => rfl⟩

theorem effect_of_exec {i : Instr} {s t : State} (h : exec i s = .next t) : Effect i s t := by
  obtain ⟨u, hu, heff⟩ := exists_effect i s
  obtain rfl : u = t := Host.Outcome.next.inj (hu.symm.trans h)
  exact heff

end Sys2Proof.Claims
end

section
/-! PROOFS. What no effect changes, and the only instructions that change each field of the state: one
pass over the effects for each field. -/

namespace Sys2Proof.Claims

open Sys2Proof.Machine

theorem Effect.cfg_eq {i : Instr} {s t : State} (h : Effect i s t) : t.cfg = s.cfg := by
  cases h <;> exact (congrArg State.cfg ‹t = _› :)

theorem Effect.ir_eq {i : Instr} {s t : State} (h : Effect i s t) : t.ir = s.ir := by
  cases h <;> exact (congrArg State.ir ‹t = _› :)

/-- An effect leaves FAULT as it was, or is a fault. -/
theorem Effect.fault_cases {i : Instr} {s t : State} (h : Effect i s t) :
    t.fault = s.fault ∨
      ∃ c info, FaultsWith s i c info ∧ t = takeFault c (s.pc - 2) (some s.ir) info s := by
  cases h with
  | fault c info hc ht => exact .inr ⟨c, info, hc, ht⟩
  | _ => exact .inl (congrArg State.fault ‹t = _› :)

theorem Effect.mem_eq {i : Instr} {s t : State} (h : Effect i s t) (hB : ∀ x, i ≠ .ldB x)
    (hM : ∀ x, i ≠ .ldMemVx x) : t.mem = s.mem := by
  cases h with
  | store hi =>
    rcases hi with ⟨x, rfl⟩ | ⟨x, rfl⟩
    · exact absurd rfl (hB x)
    · exact absurd rfl (hM x)
  | _ => exact (congrArg State.mem ‹t = _› :)

theorem Effect.fb_eq {i : Instr} {s t : State} (h : Effect i s t) (hcls : i ≠ .cls)
    (hdrw : ∀ x y n, i ≠ .drw x y n) : t.fb = s.fb := by
  cases h with
  | screen hi =>
    rcases hi with rfl | ⟨x, y, n, rfl⟩
    · exact absurd rfl hcls
    · exact absurd rfl (hdrw x y n)
  | _ => exact (congrArg State.fb ‹t = _› :)

theorem Effect.dt_eq {i : Instr} {s t : State} (h : Effect i s t) (hi : ∀ x, i ≠ .ldDtVx x) :
    t.dt = s.dt := by
  cases h with
  | delayTimer hdt =>
    obtain ⟨x, rfl⟩ := hdt
    exact absurd rfl (hi x)
  | _ => exact (congrArg State.dt ‹t = _› :)

theorem Effect.st_eq {i : Instr} {s t : State} (h : Effect i s t) (hi : ∀ x, i ≠ .ldStVx x) :
    t.st = s.st := by
  cases h with
  | soundTimer hst =>
    obtain ⟨x, rfl⟩ := hst
    exact absurd rfl (hi x)
  | _ => exact (congrArg State.st ‹t = _› :)

theorem Effect.key_eq {i : Instr} {s t : State} (h : Effect i s t)
    (hi : (∀ x, i ≠ .ldVxK x) ∨ s.cfg.fx0aClearKey = false) : t.key = s.key := by
  cases h with
  | keyReport hk _ _ hkeep =>
    obtain ⟨x, rfl⟩ := hk
    exact hkeep (hi.resolve_left fun hne => hne x rfl)
  | _ => exact (congrArg State.key ‹t = _› :)

theorem Effect.draws_eq {i : Instr} {s t : State} (h : Effect i s t) (hi : ∀ x kk, i ≠ .rnd x kk) :
    t.draws = s.draws := by
  cases h with
  | random hr =>
    obtain ⟨x, kk, rfl⟩ := hr
    exact absurd rfl (hi x kk)
  | _ => exact (congrArg State.draws ‹t = _› :)

theorem Effect.keepsOtherRegs {i : Instr} {s t : State} (h : Effect i s t) :
    KeepsOtherRegs i s t := by
  cases h with
  | datapath _ hreg | random _ _ hreg | screen _ _ hreg | keyReport _ _ hreg => exact hreg
  | _ => exact fun j _ => State.reg_congr (congrArg State.v ‹t = _› :) j

theorem Effect.sp_cases {i : Instr} {s t : State} (h : Effect i s t) :
    t.sp = s.sp ∨ (∃ nnn, i = .call nnn ∧ t.sp.val = s.sp.val + 1) ∨
      (i = .ret ∧ t.sp.val + 1 = s.sp.val) := by
  cases h with
  | call nnn hi _ _ hsp => exact .inr (.inl ⟨nnn, hi, hsp⟩)
  | ret hi _ _ hsp => exact .inr (.inr ⟨hi, hsp⟩)
  | _ => exact .inl (congrArg State.sp ‹t = _› :)

/-- The stack after an effect: as it was, or with the slot `SP` names written by a CALL. -/
theorem Effect.stack_cases {i : Instr} {s t : State} (h : Effect i s t) :
    t.stack = s.stack ∨ ∃ (nnn : Addr12) (hroom : s.sp.val < 16), i = .call nnn ∧
      t.stack = s.stack.set s.sp.val s.pc hroom := by
  cases h with
  | call nnn hi hroom ht => exact .inr ⟨nnn, hroom, hi, congrArg State.stack ht⟩
  | _ => exact .inl (congrArg State.stack ‹t = _› :)

/-- Settles O43: a byte read sees memory and the parameters; only the store effect writes memory, and
none writes the parameters. -/
theorem onlyTwoInstructionsStore : Obligations.OnlyTwoInstructionsStore := by
  intro i s t hexec hB hM
  have heff := effect_of_exec hexec
  exact State.byteAt_congr (heff.mem_eq hB hM) heff.cfg_eq

/-- Settles O49: only the screen effect writes the framebuffer, and it is CLS's or DRW's. -/
theorem framebufferChangesOnlyByClsAndDrw : Obligations.FramebufferChangesOnlyByClsAndDrw :=
  fun _ _ _ hexec => (effect_of_exec hexec).fb_eq

/-- Settles O53: each timer has one effect that writes it, that of its load. -/
theorem timersChangeOnlyByTheirLoads : Obligations.TimersChangeOnlyByTheirLoads :=
  fun _ _ _ hexec => ⟨(effect_of_exec hexec).dt_eq, (effect_of_exec hexec).st_eq⟩

/-- Settles O54: only the key report writes the keypad, and only under FX0A_CLEAR_KEY. -/
theorem keypadChangesOnlyByWait : Obligations.KeypadChangesOnlyByWait :=
  fun _ _ _ hexec => (effect_of_exec hexec).key_eq

/-- Settles O36: an instruction that is RND takes one draw by its meaning; the effects of the others
leave the counter. -/
theorem onlyRandomTakesADraw : Obligations.OnlyRandomTakesADraw := by
  intro i s t hexec
  refine ⟨?_, (effect_of_exec hexec).draws_eq⟩
  rintro ⟨x, kk, rfl⟩
  obtain rfl := Host.Outcome.next.inj hexec
  rfl

/-- Settles O37: every effect that writes registers keeps the ones R22 does not list. -/
theorem registerWritesAreListed : Obligations.RegisterWritesAreListed :=
  fun _ _ _ j hexec => (effect_of_exec hexec).keepsOtherRegs j

/-- Settles O27: `SP` moves and the stack is written only by the effects of CALL and RET, and CALL's
write is at the slot `SP` names. -/
theorem stackChangesOnlyByCallAndReturn : Obligations.StackChangesOnlyByCallAndReturn := by
  intro i s t hexec
  have heff := effect_of_exec hexec
  refine ⟨heff.sp_cases, fun hi => ?_, fun j hj => ?_⟩
  · rcases heff.stack_cases with hsame | ⟨nnn, _, rfl, -⟩
    · exact hsame
    · exact absurd rfl (hi nnn)
  · rcases heff.stack_cases with hsame | ⟨_, hroom, -, hset⟩
    · rw [hsame]
    · rw [hset]
      exact Vector.getElem_set_ne hroom j.isLt (Ne.symm hj)

/-- Settles O10: the only effect that leaves a running core faulted is a fault, and each fault carries
its condition and its info. -/
theorem faultCausesAreListed : Obligations.FaultCausesAreListed := by
  intro i s t r hrun hexec hfault
  have hbounds : (firstOutside (indexAddr s)).toNat = max s.i.toNat 0x1000 :=
    firstOutside_toNat s.i.isLt
  rcases (effect_of_exec hexec).fault_cases with hsame | ⟨c, info, hc, rfl⟩
  · rw [hsame, hrun] at hfault
    exact nomatch hfault
  · rw [takeFault_fault] at hfault
    obtain rfl := FaultStatus.faulted.inj hfault
    cases hc with
    | @drw x y n hrows h => exact .inl ⟨rfl, hbounds, .inl ⟨x, y, n, rfl, hrows, h⟩⟩
    | @ldB x h => exact .inl ⟨rfl, hbounds, .inr (.inl ⟨x, rfl, h⟩)⟩
    | @ldMemVx x h => exact .inl ⟨rfl, hbounds, .inr (.inr (.inl ⟨x, rfl, h⟩))⟩
    | @ldVxMem x h => exact .inl ⟨rfl, hbounds, .inr (.inr (.inr ⟨x, rfl, h⟩))⟩
    | @call nnn h => exact .inr (.inl ⟨rfl, rfl, h, nnn, rfl⟩)
    | ret h => exact .inr (.inr (.inl ⟨rfl, rfl, h, rfl⟩))
    | @skp x h =>
      exact .inr (.inr (.inr ⟨rfl, x, .inl rfl, h, toNat_zext16 _ (by decide)⟩))
    | @sknp x h =>
      exact .inr (.inr (.inr ⟨rfl, x, .inr rfl, h, toNat_zext16 _ (by decide)⟩))

end Sys2Proof.Claims
end

section
/-! PROOFS. What a step can do, said once (30_encoding.md R110 to R118), and from it the totality of
`exec` and `step`, the rollback, the report, `IR`, `PC` and the parameters. -/

namespace Sys2Proof.Claims

open Sys2Proof.Machine

/-- The word at `PC`. -/
def fetched (s : State) : Word := s.wordAt s.pc.toNat

/-- How a step leaves the machine. -/
inductive StepCase (s t : State) : Prop
  /-- a faulted core executes nothing -/
  | halted (r : FaultRecord) (hf : s.fault = .faulted r) (ht : t = s)
  /-- the fetch leaves memory -/
  | fetchFault (hf : s.fault = .run) (hpc : s.pc.toNat > 0xFFE)
      (ht : t = { s with
        fault := .faulted ⟨.fetchBounds, s.pc, none, firstOutside s.pc.toNat⟩ })
  /-- the instruction completes and all its writes are committed -/
  | completed (hf : s.fault = .run) (hpc : s.pc.toNat ≤ 0xFFE)
      (hexec : exec (decodeWord (fetched s)) (advance (fetched s) s) = .next t)
      (heff : Effect (decodeWord (fetched s)) (advance (fetched s) s) t) (hrun : t.fault = .run)
  /-- the instruction faults and only the record is committed -/
  | executeFault (hf : s.fault = .run) (hpc : s.pc.toNat ≤ 0xFFE) (c : FaultCause) (info : Word)
      (hc : FaultsWith (advance (fetched s) s) (decodeWord (fetched s)) c info)
      (ht : t = { s with fault := .faulted ⟨c, s.pc, some (fetched s), info⟩ })

theorem fetch_of_le {s : State} (hpc : s.pc.toNat ≤ 0xFFE) : fetch s = some (fetched s) :=
  if_neg (Nat.not_lt.mpr hpc)

theorem step_of_fetch {s : State} (hf : s.fault = .run) (hpc : s.pc.toNat ≤ 0xFFE) :
    step s = commit s (exec (decodeWord (fetched s)) (advance (fetched s) s)) :=
  cycle_run s hf hpc

/-- A step of a running core whose instruction completes answers the state the instruction leaves. -/
theorem step_of_exec_run {s t : State} (hf : s.fault = .run) (hpc : s.pc.toNat ≤ 0xFFE)
    (hexec : exec (decodeWord (fetched s)) (advance (fetched s) s) = .next t)
    (hrun : t.fault = .run) : step s = .next t := by
  rw [step_of_fetch hf hpc, hexec, commit_next_run s t hrun]

theorem exists_stepCase (s : State) : ∃ t, step s = .next t ∧ StepCase s t := by
  cases hf : s.fault with
  | faulted r => exact ⟨s, cycle_faulted s r hf, .halted r hf rfl⟩
  | run =>
    rcases Nat.lt_or_ge 0xFFE s.pc.toNat with hout | hin
    · exact ⟨_, cycle_fetchFault s hf hout, .fetchFault hf hout rfl⟩
    · obtain ⟨u, hexec, heff⟩ := exists_effect (decodeWord (fetched s)) (advance (fetched s) s)
      rcases heff.fault_cases with hsame | ⟨c, info, hc, hu⟩
      · have hrun : u.fault = .run := hsame.trans hf
        exact ⟨u, step_of_exec_run hf hin hexec hrun, .completed hf hin hexec heff hrun⟩
      · refine ⟨_, ?_, .executeFault hf hin c info hc rfl⟩
        have hback : (advance (fetched s) s).pc - 2 = s.pc := BitVec.add_sub_cancel s.pc 2
        have hfault : u.fault = .faulted ⟨c, s.pc, some (fetched s), info⟩ := by
          rw [hu, takeFault_fault, hback, advance_ir]
        rw [step_of_fetch hf hin, hexec, commit_next_faulted s u _ hfault]

theorem stepCase_of_step {s t : State} (h : step s = .next t) : StepCase s t := by
  obtain ⟨u, hu, hcase⟩ := exists_stepCase s
  obtain rfl : u = t := Host.Outcome.next.inj (hu.symm.trans h)
  exact hcase

/-- A running core that is not faulted after a step has completed the instruction it fetched. -/
theorem completed_of_step {s t : State} (hf : s.fault = .run) (hstep : step s = .next t)
    (hrun : t.fault = .run) : s.pc.toNat ≤ 0xFFE ∧
      exec (decodeWord (fetched s)) (advance (fetched s) s) = .next t ∧
      Effect (decodeWord (fetched s)) (advance (fetched s) s) t := by
  cases stepCase_of_step hstep with
  | halted r hf' => rw [hf] at hf'; exact nomatch hf'
  | fetchFault _ _ ht | executeFault _ _ _ _ _ ht => rw [ht] at hrun; exact nomatch hrun
  | completed _ hpc hexec heff => exact ⟨hpc, hexec, heff⟩

/-- Settles O8: every instruction has an effect, and every step a case. -/
theorem everyInstructionAnswersNext : Obligations.EveryInstructionAnswersNext := by
  refine ⟨fun i s => ?_, fun s => ?_⟩
  · obtain ⟨t, hexec, -⟩ := exists_effect i s
    exact ⟨t, hexec⟩
  · obtain ⟨t, hstep, -⟩ := exists_stepCase s
    exact ⟨t, hstep⟩

/-- Settles O5: a step is `commit` of what the decoded instruction answers on the advanced state. -/
theorem stepRunsDecodedInstruction : Obligations.StepRunsDecodedInstruction := by
  intro s i hf hpc hdecode
  obtain ⟨rfl, -⟩ := Prod.mk.inj (Except.ok.inj hdecode)
  obtain ⟨t, hexec, -⟩ := exists_effect (decodeWord (fetched s)) (advance (fetched s) s)
  refine ⟨t, hexec, fun hrun => ?_, fun r hfault => ?_⟩
  · exact step_of_exec_run hf hpc hexec hrun
  · rw [step_of_fetch hf hpc, hexec, commit_next_faulted s t r hfault]

/-- Settles O6: the cycle takes the fetch fault at `PC` itself. -/
theorem fetchOutOfBoundsFaults : Obligations.FetchOutOfBoundsFaults :=
  fun s hf hpc => cycle_fetchFault s hf hpc

/-- The report of a cycle that leaves the core faulted. -/
theorem cycleResult_of_faulted {s t : State} {r : FaultRecord} (hstep : step s = .next t)
    (hfault : t.fault = .faulted r) : cycleResult s = .faulted := by
  have hcycle : cycle s = .next t := hstep
  simp only [cycleResult, hcycle, hfault]

/-- The report of a cycle that completes. -/
theorem cycleResult_of_completed {s t : State} (hstep : step s = .next t) (hrun : t.fault = .run)
    (hpc : s.pc.toNat ≤ 0xFFE) :
    cycleResult s = if waits (decodeWord (fetched s)) s then .waitingKey else .executed := by
  have hcycle : cycle s = .next t := hstep
  simp only [cycleResult, hcycle, hrun, fetch_of_le hpc]

/-- Settles O7: the step by `cycle_faulted`; the other transactions that go on write other fields, and
construction starts a new state. -/
theorem faultedCoreStaysFaulted : Obligations.FaultedCoreStaysFaulted := by
  intro s r hf
  have hstep : step s = .next s := cycle_faulted s r hf
  refine ⟨hstep, cycleResult_of_faulted hstep hf, hf, fun _ => hf, fun source => ?_, rfl⟩
  cases source with
  | none => exact hf
  | some image =>
    show (load image s).1.fault = _
    unfold load
    split
    · exact hf
    · exact hf

/-- Settles O9: the two cases of a step that fault a running core both commit the record alone. -/
theorem faultedCycleCommitsNothing : Obligations.FaultedCycleCommitsNothing := by
  intro s t r hf hstep hfault
  cases stepCase_of_step hstep with
  | halted r' hf' => rw [hf] at hf'; exact nomatch hf'
  | completed _ _ _ _ hrun => rw [hrun] at hfault; exact nomatch hfault
  | fetchFault _ hpc ht =>
    subst ht
    obtain rfl := FaultStatus.faulted.inj hfault
    exact ⟨rfl, rfl, (if_neg (Nat.not_le.mpr hpc)).symm⟩
  | executeFault _ hpc c info _ ht =>
    subst ht
    obtain rfl := FaultStatus.faulted.inj hfault
    exact ⟨rfl, rfl, (if_pos hpc).symm⟩

/-- Settles O12: no effect changes `IR`, which the fetch has written. -/
theorem completedCycleWritesIr : Obligations.CompletedCycleWritesIr := by
  intro s t hf hstep hrun
  obtain ⟨-, -, heff⟩ := completed_of_step hf hstep hrun
  exact heff.ir_eq

/-- An instruction that leaves `PC` advanced is allowed by R25, whichever it is. -/
theorem pcAfter_add_two (i : Instr) (p : Word) : PcAfter i p (p + 2) := by
  cases i <;> simp [PcAfter]

theorem Effect.pcAfter {i : Instr} {s t : State} {p : Word} (h : Effect i s t) (hp : s.pc = p + 2)
    (hrun : t.fault = .run) : PcAfter i p t.pc := by
  cases h with
  | transfer _ hpc => exact (hpc p hp).1
  | call nnn hi => subst hi; trivial
  | ret hi => subst hi; trivial
  | fault c info _ ht => rw [ht] at hrun; exact nomatch hrun
  | _ =>
    have hsame : t.pc = s.pc := (congrArg State.pc ‹t = _› :)
    rw [hsame, hp]
    exact pcAfter_add_two i p

/-- Settles O13: the completed instruction ran with `PC` advanced, and each effect says where it leaves
it. -/
theorem pcAdvancesByTwoOrFour : Obligations.PcAdvancesByTwoOrFour := by
  intro s t hf hstep hrun
  obtain ⟨-, -, heff⟩ := completed_of_step hf hstep hrun
  exact heff.pcAfter rfl hrun

theorem step_cfg {s t : State} (hstep : step s = .next t) : t.cfg = s.cfg := by
  cases stepCase_of_step hstep with
  | halted _ _ ht | fetchFault _ _ ht | executeFault _ _ _ _ _ ht => rw [ht]
  | completed _ _ _ heff => exact heff.cfg_eq

theorem loadSource_cfg (source : Option (List Byte)) (s : State) :
    (loadSource source s).1.cfg = s.cfg := by
  cases source with
  | none => rfl
  | some image =>
    show (load image s).1.cfg = _
    unfold load
    split <;> rfl

/-- Settles O18: no case of a step writes the parameters, nor does any other transaction. -/
theorem parametersNeverChange : Obligations.ParametersNeverChange := by
  intro tr s t h
  cases tr with
  | stepCycle => exact step_cfg h
  | load source =>
    obtain rfl := Host.Outcome.next.inj h
    exact loadSource_cfg source s
  | _ =>
    obtain rfl := Host.Outcome.next.inj h
    rfl

/-- No key is pressed exactly when LD Vx, K would find none. -/
theorem leastPressed_eq_none_iff_key (s : State) :
    s.leastPressed = none ↔ ∀ k : Fin 16, s.key[k] = false := by
  rw [leastPressed_eq_none]
  exact ⟨fun h k => h (BitVec.ofFin k), fun h k => h k.toFin⟩

theorem waits_eq_true_iff (i : Instr) (s : State) :
    waits i s = true ↔ (∃ x, i = .ldVxK x) ∧ ∀ k : Fin 16, s.key[k] = false := by
  rw [← leastPressed_eq_none_iff_key]
  cases i <;> simp [waits]

/-- A wait goes back to the instruction's address, so only `IR` has changed. -/
theorem step_of_waits {s t : State} (hstep : step s = .next t) (hf : s.fault = .run)
    (hpc : s.pc.toNat ≤ 0xFFE) (hwaits : waits (decodeWord (fetched s)) s = true) :
    t = { s with ir := fetched s } := by
  obtain ⟨⟨x, hi⟩, hkeys⟩ := (waits_eq_true_iff _ _).mp hwaits
  have hnone : (advance (fetched s) s).leastPressed = none :=
    (leastPressed_eq_none_iff_key _).mpr hkeys
  have hexec := exec_ldVxK_none x _ hnone
  rw [← hi] at hexec
  obtain rfl := Host.Outcome.next.inj (hstep.symm.trans (step_of_exec_run hf hpc hexec hf))
  have hback : s.pc + 2 - 2 = s.pc := BitVec.add_sub_cancel s.pc 2
  simp only [State.setPc, advance, hback]

/-- Settles O11: by what the step did. -/
theorem cycleReport : Obligations.CycleReport := by
  intro s t hstep
  have hfaulted {r : FaultRecord} (hfault : t.fault = .faulted r) :=
    cycleResult_of_faulted hstep hfault
  cases stepCase_of_step hstep with
  | halted r hf ht =>
    subst ht
    simp [hfaulted hf, hf]
  | fetchFault hf hpc ht =>
    subst ht
    simp [hfaulted rfl, Nat.not_le.mpr hpc]
  | executeFault hf hpc c info hc ht =>
    have hnowait : ∀ x, decodeWord (s.wordAt s.pc.toNat) ≠ .ldVxK x := by
      intro x hi
      rw [fetched, hi] at hc
      exact nomatch hc
    subst ht
    simp [hfaulted rfl, hnowait]
  | completed hf hpc hexec heff hrun =>
    have hreport := cycleResult_of_completed hstep hrun hpc
    have hiff := waits_eq_true_iff (decodeWord (fetched s)) s
    by_cases hwaits : waits (decodeWord (fetched s)) s = true
    · rw [if_pos hwaits] at hreport
      refine ⟨by simp [hreport, hrun], ?_, fun _ => step_of_waits hstep hf hpc hwaits⟩
      rw [hreport]
      exact iff_of_true rfl ⟨hf, hpc, hiff.mp hwaits⟩
    · rw [if_neg hwaits] at hreport
      refine ⟨by simp [hreport, hrun], ?_, by simp [hreport]⟩
      rw [hreport]
      exact iff_of_false (fun h => nomatch h) fun ⟨_, _, hkey⟩ => hwaits (hiff.mpr hkey)

end Sys2Proof.Claims
end

section
/-! PROOFS. The invariant (10_state.md R26, R38, R41): it holds after construction, every effect keeps
its parts, and so every step and every transaction keeps it. -/

namespace Sys2Proof.Claims

open Sys2Proof.Machine

theorem inv_constructed (c : Config) : Inv (State.constructed c) where
  memory := Memory.wf_nil c
  pcBound := (by decide : (0x0200#16).toNat ≤ 0x10FE)
  stackBound j := by simp [State.constructed]
  faultSound _ h := nomatch h

/-- Settles O15. -/
theorem resetMeetsInvariant : Obligations.ResetMeetsInvariant :=
  ⟨inv_constructed, inv_constructed defaultConfig⟩

/-- Only a store changes memory, and it stores inside memory. -/
theorem Effect.mem_wf {i : Instr} {s t : State} (h : Effect i s t) (hwf : s.mem.wf s.cfg) :
    t.mem.wf t.cfg := by
  rw [h.cfg_eq]
  cases h with
  | store _ _ hkeep => exact hkeep hwf
  | _ =>
    have hsame : t.mem = s.mem := (congrArg State.mem ‹t = _› :)
    rwa [hsame]

/-- From an advanced state whose fetch was in bounds: a transfer stays within its bound, RET takes a
stack entry, a fault goes back to the fetched address, and the rest leave `PC` advanced. -/
theorem Effect.pc_le {i : Instr} {s t : State} {p : Word} (h : Effect i s t) (hp : s.pc = p + 2)
    (hb : p.toNat ≤ 0xFFE) (hstack : ∀ j : Fin 16, (s.stack[j]).toNat ≤ 0x1000) :
    t.pc.toNat ≤ 0x10FE := by
  cases h with
  | transfer _ hpc => exact (hpc p hp).2 hb
  | call nnn _ _ ht =>
    have hpc : t.pc = zext16 nnn := (congrArg State.pc ht :)
    have := nnn.isLt
    rw [hpc, toNat_zext16 nnn (by decide)]
    omega
  | ret _ hsome ht =>
    have hpc : t.pc = s.stack[s.sp.val - 1] := (congrArg State.pc ht :)
    have hentry := hstack ⟨s.sp.val - 1, by omega⟩
    rw [hpc]
    exact Nat.le_trans hentry (by decide)
  | fault c info _ ht =>
    have hpc : t.pc = p := by rw [ht, takeFault_pc, hp, BitVec.add_sub_cancel]
    rw [hpc]
    omega
  | _ =>
    have hsame : t.pc = s.pc := (congrArg State.pc ‹t = _› :)
    rw [hsame, hp, toNat_add_two (by omega)]
    omega

/-- Only CALL writes a slot, and what it writes is the advanced `PC`. -/
theorem Effect.stack_le {i : Instr} {s t : State} (h : Effect i s t) (hpc : s.pc.toNat ≤ 0x1000)
    (hstack : ∀ j : Fin 16, (s.stack[j]).toNat ≤ 0x1000) (j : Fin 16) :
    (t.stack[j]).toNat ≤ 0x1000 := by
  rcases h.stack_cases with hsame | ⟨_, hroom, -, hset⟩
  · rw [hsame]
    exact hstack j
  · rw [hset, Fin.getElem_fin, Vector.getElem_set]
    split
    · exact hpc
    · exact hstack j

/-- The record of an instruction that faults in the advanced state is sound in the state it was
fetched in: they differ in `PC` and `IR` alone. -/
theorem FaultsWith.sound {s t : State} {i : Instr} {c : FaultCause} {info : Word} {w : Word}
    (h : FaultsWith (advance w s) i c info) (hpc : s.pc.toNat ≤ 0xFFE)
    (ht : t = { s with fault := .faulted ⟨c, s.pc, some w, info⟩ }) :
    FaultRecord.sound ⟨c, s.pc, some w, info⟩ t := by
  subst ht
  have hbounds : (firstOutside (indexAddr (advance w s))).toNat = max s.i.toNat 0x1000 :=
    firstOutside_toNat s.i.isLt
  cases h with
  | drw | ldB | ldMemVx | ldVxMem => exact ⟨rfl, ⟨w, rfl⟩, hpc, hbounds⟩
  | call h => exact ⟨rfl, ⟨w, rfl⟩, hpc, rfl, h⟩
  | ret h => exact ⟨rfl, ⟨w, rfl⟩, hpc, rfl, h⟩
  | skp h | sknp h =>
    refine ⟨rfl, ⟨w, rfl⟩, hpc, ?_⟩
    rw [toNat_zext16 _ (by decide)]
    exact ⟨h, BitVec.isLt _⟩

/-- Taking a fault, with a sound record, keeps the invariant: nothing else changes. -/
theorem inv_of_faulted {s t : State} {r : FaultRecord} (hinv : Inv s)
    (ht : t = { s with fault := .faulted r }) (hr : r.sound t) : Inv t := by
  subst ht
  refine ⟨hinv.memory, hinv.pcBound, hinv.stackBound, fun r' hr' => ?_⟩
  obtain rfl := FaultStatus.faulted.inj hr'
  exact hr

/-- Settles O16: part by part, for what the step did. -/
theorem stepKeepsInvariant : Obligations.StepKeepsInvariant := by
  intro s t hinv hstep
  cases stepCase_of_step hstep with
  | halted _ _ ht => exact ht ▸ hinv
  | fetchFault _ hpc ht =>
    have hinfo := firstOutside_toNat s.pc.isLt
    exact inv_of_faulted hinv ht (by subst ht; exact ⟨rfl, rfl, hpc, hinfo⟩)
  | executeFault _ hpc _ _ hc ht => exact inv_of_faulted hinv ht (hc.sound hpc ht)
  | completed _ hpc _ heff hrun =>
    have hadvanced : (advance (fetched s) s).pc.toNat ≤ 0x1000 := by
      rw [advance_pc, toNat_add_two (by omega)]
      omega
    exact ⟨heff.mem_wf hinv.memory, heff.pc_le rfl hpc hinv.stackBound,
      heff.stack_le hadvanced hinv.stackBound, fun r hr => by rw [hrun] at hr; exact nomatch hr⟩

/-- `load` fits its image between 0x200 and the end of memory. -/
theorem loadSource_keeps_inv (source : Option (List Byte)) {s : State} (hinv : Inv s) :
    Inv (loadSource source s).1 := by
  cases source with
  | none => exact hinv
  | some image =>
    show Inv (load image s).1
    unfold load
    split
    case isTrue => exact hinv
    case isFalse hfits =>
      have hwf := Memory.wf_writeMany s.cfg image s.mem 0x200 hinv.memory (by omega)
      exact ⟨hwf, hinv.pcBound, hinv.stackBound, hinv.faultSound⟩

/-- Settles O17: construction starts from the constructed state, ticks and key writes change fields
the invariant does not speak of, and the reads change nothing. -/
theorem transactionsKeepInvariant : Obligations.TransactionsKeepInvariant := by
  intro tr s t hinv h
  cases tr with
  | stepCycle => exact stepKeepsInvariant s t hinv h
  | load source =>
    obtain rfl := Host.Outcome.next.inj h
    exact loadSource_keeps_inv source hinv
  | construct =>
    obtain rfl := Host.Outcome.next.inj h
    obtain ⟨hmem, hpc, hstack, hfault⟩ := inv_constructed s.cfg
    exact ⟨hmem, hpc, hstack, hfault⟩
  | tickTimers | writeKeypad keys =>
    obtain rfl := Host.Outcome.next.inj h
    exact ⟨hinv.memory, hinv.pcBound, hinv.stackBound, hinv.faultSound⟩
  | readFramebuffer | readSoundTimer | readFault =>
    obtain rfl := Host.Outcome.next.inj h
    exact hinv

/-- In canonical form the cells are what memory reads as, where that is not the contents at reset. -/
theorem mem_iff_read {c : Config} {m : Memory} (h : m.wf c) (p : Host.Cell) :
    p ∈ m ↔ p.1 < 4096 ∧ Memory.read c m p.1 = p.2 ∧ p.2 ≠ initByte c p.1 := by
  obtain ⟨hsorted, hcells⟩ := h
  induction m with
  | nil =>
    simp only [List.not_mem_nil, false_iff, Memory.read, lookupCell, Option.getD_none]
    exact fun ⟨_, hread, hne⟩ => hne hread.symm
  | cons q m ih =>
    obtain ⟨hq, hm⟩ := List.pairwise_cons.mp hsorted
    have ih := ih hm fun p hp => hcells p (List.mem_cons_of_mem q hp)
    by_cases hp : q.1 = p.1
    · have hread : Memory.read c (q :: m) p.1 = q.2 := by simp [Memory.read, lookupCell, hp]
      have hnot : p ∉ m := fun hmem => Nat.ne_of_lt (hq p hmem) hp
      obtain ⟨hlt, hne⟩ := hcells q List.mem_cons_self
      rw [hread, List.mem_cons, or_iff_left hnot]
      constructor
      · rintro rfl
        exact ⟨hlt, rfl, hne⟩
      · exact fun ⟨_, hval, _⟩ => Prod.ext hp.symm hval.symm
    · have hread : Memory.read c (q :: m) p.1 = Memory.read c m p.1 := by
        simp [Memory.read, lookupCell, hp]
      have hne : p ≠ q := fun e => hp (congrArg Prod.fst e.symm)
      rw [hread, List.mem_cons, or_iff_right hne]
      exact ih

/-- Settles O19: two canonical memories that read alike have the same cells, and a list sorted by
address is determined by its members. -/
theorem canonicalMemoryIsUnique : Obligations.CanonicalMemoryIsUnique := by
  intro c m m' h h' hread
  have hirrefl : Std.Irrefl fun p q : Host.Cell => p.1 < q.1 := ⟨fun p => Nat.lt_irrefl p.1⟩
  have hasymm : Std.Antisymm fun p q : Host.Cell => p.1 < q.1 :=
    ⟨fun _ _ hpq hqp => absurd hqp (Nat.lt_asymm hpq)⟩
  refine List.Pairwise.eq_of_mem_iff h.1 h'.1 fun p => ?_
  rw [mem_iff_read h, mem_iff_read h']
  exact and_congr_right fun hlt => by rw [hread p.1 hlt]

end Sys2Proof.Claims
end

section
/-! PROOFS. Stores and loads of memory (42_index_memory.md R213 to R215, 70_reset_and_hazards.md R322):
the byte each store leaves at every address, proved once, and the fault outside memory. -/

namespace Sys2Proof.Claims

open Sys2Proof.Machine

/-- An instruction that takes a fault raises it, in the statements' words. -/
theorem raises_of_exec {i : Instr} {s : State} {c : FaultCause} {info : Word} {n : Nat}
    (hexec : exec i s = .next (takeFault c (s.pc - 2) (some s.ir) info s))
    (hinfo : info = BitVec.ofNat 16 n) : Raises i s c n := by
  subst hinfo
  exact hexec

theorem digitStored_storeBytes {s : State} (x : Nibble) (hwf : s.mem.wf s.cfg)
    (hin : indexAddr s + 2 ≤ 0xFFF) (a : Nat) :
    DigitStored s x a ((s.storeBytes (indexAddr s) (bcdDigits (s.reg x))).byteAt a) := by
  have hv := (s.reg x).isLt
  have hread := State.byteAt_storeBytes s (indexAddr s) a (bcdDigits (s.reg x)) hwf
    (by simp [bcdDigits]; omega)
  have hlen : (bcdDigits (s.reg x)).length = 3 := rfl
  have hI : indexAddr s = s.i.toNat := rfl
  rw [hread, hlen]
  refine ⟨fun ha => ?_, fun ha => ?_, fun ha => ?_, fun h => if_neg (by omega)⟩
  · rw [if_pos (by omega), ha, hI, Nat.sub_self]
    simp [bcdDigits]
    omega
  · rw [if_pos (by omega), ha, hI, Nat.add_sub_cancel_left]
    simp [bcdDigits]
    omega
  · rw [if_pos (by omega), ha, hI, Nat.add_sub_cancel_left]
    simp [bcdDigits]
    omega

theorem regStored_storeBytes {s : State} {x : Nibble} (hwf : s.mem.wf s.cfg)
    (hin : indexLast x s ≤ 0xFFF) (a : Nat) :
    RegStored s x a ((s.storeBytes (indexAddr s) (regsUpTo x s)).byteAt a) := by
  have hlen := length_regsUpTo x s
  have hread := State.byteAt_storeBytes s (indexAddr s) a (regsUpTo x s) hwf
    (by unfold indexLast at hin; unfold indexAddr; omega)
  have hI : indexAddr s = s.i.toNat := rfl
  rw [hread, hlen]
  refine ⟨fun j hj ha => ?_, fun h => if_neg (by omega)⟩
  rw [if_pos (by omega), ha, hI, Nat.add_sub_cancel_left, getD_regsUpTo x j s hj]

/-- `I` after a store or load of registers (R214, R215). -/
theorem toNat_stepIndex_i (x : Nibble) (s t : State) (hi : t.i = s.i) (hcfg : t.cfg = s.cfg) :
    (stepIndex x t).i.toNat =
      if s.cfg.ldstIIncr then (s.i.toNat + x.toNat + 1) % 65536 else s.i.toNat := by
  have hx := x.isLt
  rw [stepIndex_i, hi, hcfg]
  split
  · rw [BitVec.toNat_add, BitVec.toNat_ofNat]
    omega
  · rfl

/-- Settles O40: `DigitStored` at the three addresses and at every other. -/
theorem bcdDigitsStored : Obligations.BcdDigitsStored := by
  intro x s hwf
  refine ⟨fun hin => ?_, fun hout => raises_of_exec (exec_ldB_outside x s hout) rfl⟩
  have hstored := digitStored_storeBytes x hwf hin
  obtain ⟨hundreds, -, -, -⟩ := hstored (indexAddr s)
  obtain ⟨-, htens, -, -⟩ := hstored (indexAddr s + 1)
  obtain ⟨-, -, hones, -⟩ := hstored (indexAddr s + 2)
  refine ⟨_, exec_ldB_inside x s hin, rfl, hundreds rfl, htens rfl, hones rfl,
    State.reg_congr rfl, fun a ha => ?_⟩
  obtain ⟨-, -, -, hother⟩ := hstored a
  exact hother ha

/-- Settles O41: `RegStored` at every address; the step of `I` leaves memory and registers. -/
theorem registersStored : Obligations.RegistersStored := by
  intro x s hwf
  refine ⟨fun hin => ?_, fun hout => raises_of_exec (exec_ldMemVx_outside x s hout) rfl⟩
  have hstored := regStored_storeBytes hwf hin
  have hbyte : ∀ a, (stepIndex x (s.storeBytes (indexAddr s) (regsUpTo x s))).byteAt a =
      (s.storeBytes (indexAddr s) (regsUpTo x s)).byteAt a :=
    State.byteAt_congr (stepIndex_mem x _) (stepIndex_cfg x _)
  refine ⟨_, exec_ldMemVx_inside x s hin, ?_, fun j hj => ?_, State.reg_congr (stepIndex_v x _),
    fun a ha => ?_, toNat_stepIndex_i x s _ rfl rfl⟩
  · apply State.ext <;> simp
  · obtain ⟨hreg, -⟩ := hstored (indexAddr s + j.toNat)
    rw [hbyte]
    exact hreg j hj rfl
  · obtain ⟨-, hother⟩ := hstored a
    rw [hbyte]
    exact hother ha

/-- Settles O42: what the loads leave in each register, and the step of `I` apart from it. -/
theorem registersLoaded : Obligations.RegistersLoaded := by
  intro x s
  refine ⟨fun hin => ?_, fun hout => raises_of_exec (exec_ldVxMem_outside x s hout) rfl⟩
  refine ⟨_, exec_ldVxMem_inside x s hin, ?_, State.byteAt_congr ?_ ?_, fun j => ?_,
    toNat_stepIndex_i x s _ ?_ ?_⟩
  · apply State.ext <;> simp
  · simp
  · simp
  · rw [State.reg_congr (stepIndex_v x _), reg_loadRegs_bytesAt]
  · simp
  · simp

/-- What the next cycle fetches, byte by byte, when `PC` was advanced and stayed in bounds. -/
theorem fetch_of_advanced {s t : State} (hpc : s.pc.toNat ≤ 0xFFC) (ht : t.pc = s.pc + 2) :
    fetch t = some (wordOfBytes (t.byteAt (s.pc.toNat + 2)) (t.byteAt (s.pc.toNat + 3))) := by
  have hadd : t.pc.toNat = s.pc.toNat + 2 := by rw [ht, toNat_add_two (by omega)]
  rw [fetch_of_le (by omega), fetched, hadd]
  rfl

/-- Settles O44: the completed store is inside memory, so each byte the next cycle fetches is the one
the store left; the cycle's own advance of `PC` and write of `IR` touch nothing the store reads. -/
theorem storeIsSeenByNextFetch : Obligations.StoreIsSeenByNextFetch := by
  intro s t x hinv hf hpc hstep hrun
  obtain ⟨-, hexec, -⟩ := completed_of_step hf hstep hrun
  have hwf : (advance (fetched s) s).mem.wf (advance (fetched s) s).cfg := hinv.memory
  refine ⟨fun hi => ?_, fun hi => ?_⟩
  · rw [fetched, hi] at hexec
    rcases Nat.lt_or_ge 0xFFF (indexLast x (advance (fetched s) s)) with hout | hin
    · obtain rfl := Host.Outcome.next.inj ((exec_ldMemVx_outside x _ hout).symm.trans hexec)
      exact nomatch hrun
    · obtain rfl := Host.Outcome.next.inj ((exec_ldMemVx_inside x _ hin).symm.trans hexec)
      refine ⟨_, _, fetch_of_advanced hpc (stepIndex_pc x _), ?_, ?_⟩
      · rw [State.byteAt_congr (stepIndex_mem x _) (stepIndex_cfg x _)]
        exact regStored_storeBytes hwf hin _
      · rw [State.byteAt_congr (stepIndex_mem x _) (stepIndex_cfg x _)]
        exact regStored_storeBytes hwf hin _
  · rw [fetched, hi] at hexec
    rcases Nat.lt_or_ge 0xFFF (indexAddr (advance (fetched s) s) + 2) with hout | hin
    · obtain rfl := Host.Outcome.next.inj ((exec_ldB_outside x _ hout).symm.trans hexec)
      exact nomatch hrun
    · obtain rfl := Host.Outcome.next.inj ((exec_ldB_inside x _ hin).symm.trans hexec)
      exact ⟨_, _, fetch_of_advanced hpc rfl, digitStored_storeBytes x hwf hin _,
        digitStored_storeBytes x hwf hin _⟩

theorem load_of_length_le {image : List Byte} (s : State) (h : image.length ≤ 3584) :
    load image s = (s.storeBytes 0x200 image, .success) :=
  if_neg (Nat.not_lt.mpr h)

/-- Settles O57: an image that fits is one store from 0x200 that ends by 0x1000. -/
theorem loadCopiesImage : Obligations.LoadCopiesImage := by
  intro image s hwf hlen
  rw [load_of_length_le s hlen]
  exact ⟨rfl, rfl, fun a => State.byteAt_storeBytes s 0x200 a image hwf (by omega)⟩

end Sys2Proof.Claims
end

section
/-! PROOFS. Cycles on words of no effect and on the word 0x0000 (40_control.md R130,
70_reset_and_hazards.md R325), and the run of a core with nothing loaded. -/

namespace Sys2Proof.Claims

open Sys2Proof.Machine

theorem toNat_fieldOp (w : Word) : (fieldOp w).toNat = w.toNat / 4096 := by
  have := w.isLt
  simp only [fieldOp, BitVec.extractLsb'_toNat, Nat.shiftRight_eq_div_pow]
  omega

theorem toNat_fieldN (w : Word) : (fieldN w).toNat = w.toNat % 16 := by
  simp [fieldN, BitVec.extractLsb'_toNat]

theorem toNat_fieldKK (w : Word) : (fieldKK w).toNat = w.toNat % 256 := by
  simp [fieldKK, BitVec.extractLsb'_toNat]

/-- A selector whose value is none of the assigned ones is not assigned. -/
theorem not_contains_of_toNat {n : Nat} {l : List (BitVec n)} {v : BitVec n}
    (h : v.toNat ∉ l.map BitVec.toNat) : (!l.contains v) = true := by
  rw [Bool.not_eq_true', ← Bool.not_eq_true, List.contains_iff_mem]
  exact fun hmem => h (List.mem_map_of_mem hmem)

/-- An unassigned word decodes to its family's default (R95 to R98). -/
theorem decodeWord_of_unassigned {w : Word} (h : Unassigned w.toNat) :
    decodeWord w ∈
      [.nop0 (fieldNNN w), .nop8 (fieldNNN w), .nopE (fieldNNN w), .nopF (fieldNNN w)] := by
  have hop {op : Nibble} (hq : w.toNat / 4096 = op.toNat) : fieldOp w = op :=
    BitVec.eq_of_toNat_eq ((toNat_fieldOp w).trans hq)
  have hn := toNat_fieldN w
  have hkk := toNat_fieldKK w
  rcases h with ⟨hq, hsel⟩ | ⟨hq, hsel⟩ | ⟨hq, hsel⟩ | ⟨hq, hsel⟩
  · have hdefault := decode0_of_unassigned (w := w) (not_contains_of_toNat (by rw [hn]; exact hsel))
    simp [decodeWord, hop (op := 0x0#4) hq, hdefault]
  · have hdefault := decode8_of_unassigned (w := w) (not_contains_of_toNat (by
      rw [hn]; simp [assigned8] at hsel ⊢; omega))
    simp [decodeWord, hop (op := 0x8#4) hq, hdefault]
  · have hdefault := decodeE_of_unassigned (w := w) (not_contains_of_toNat (by
      rw [hn]; simp [assignedE] at hsel ⊢; omega))
    simp [decodeWord, hop (op := 0xE#4) hq, hdefault]
  · have hdefault := decodeF_of_unassigned (w := w) (not_contains_of_toNat (by
      rw [hkk]; exact hsel))
    simp [decodeWord, hop (op := 0xF#4) hq, hdefault]

theorem exec_default (u : Addr12) (s : State) {i : Instr}
    (hi : i ∈ [Instr.nop0 u, .nop8 u, .nopE u, .nopF u]) : exec i s = .next s := by
  simp only [List.mem_cons, List.not_mem_nil, or_false] at hi
  rcases hi with rfl | rfl | rfl | rfl <;> rfl

/-- Settles O21: an unassigned word decodes to a default, and a default completes in the advanced
state. -/
theorem nopOnlyAdvances : Obligations.NopOnlyAdvances := by
  refine ⟨fun u s => ⟨rfl, rfl, rfl, rfl⟩, fun s hf hpc hun => ?_⟩
  exact step_of_exec_run hf hpc (exec_default _ _ (decodeWord_of_unassigned hun)) hf

/-- Settles O60: two zero bytes are the word 0x0000, which is CLS. -/
theorem zeroWordClearsScreen : Obligations.ZeroWordClearsScreen := by
  intro s hf hpc hhi hlo
  have hword : fetched s = 0x0000#16 := by
    rw [fetched, State.wordAt, hhi, hlo]
    rfl
  have hexec : exec (decodeWord (fetched s)) (advance (fetched s) s) =
      .next { advance 0x0000#16 s with fb := Machine.clearScreen } := by
    rw [hword]
    rfl
  exact ⟨_, step_of_exec_run hf hpc hexec hf, rfl, pixel_clearScreen⟩

/-- The core at boot after `k` cycles with nothing loaded. -/
def bootAt (k : Nat) : State := { State.reset with pc := BitVec.ofNat 16 (0x200 + 2 * k) }

theorem toNat_bootAt_pc {k : Nat} (hk : k ≤ 1792) : (bootAt k).pc.toNat = 0x200 + 2 * k := by
  simp only [bootAt, BitVec.toNat_ofNat]
  omega

/-- Above the font memory is zero at reset (D14). -/
theorem byteAt_bootAt (k : Nat) {a : Nat} (ha : 80 ≤ a) : (bootAt k).byteAt a = 0x00#8 := by
  have hinit : initByte defaultConfig a = 0x00#8 := dif_neg (Nat.not_lt.mpr ha)
  exact hinit

theorem step_bootAt {k : Nat} (hk : k < 1792) : step (bootAt k) = .next (bootAt (k + 1)) := by
  have hpc := toNat_bootAt_pc (Nat.le_of_lt hk)
  obtain ⟨t, hstep, ht, hpixels⟩ := zeroWordClearsScreen (bootAt k) rfl (by omega)
    (byteAt_bootAt k (by omega)) (byteAt_bootAt k (by omega))
  have hfb : t.fb = State.reset.fb :=
    fb_ext fun c r => (hpixels c r).trans (pixel_clearScreen c r).symm
  have hnext : (bootAt k).pc + 2 = (bootAt (k + 1)).pc := by
    apply BitVec.eq_of_toNat_eq
    rw [toNat_add_two (by omega), hpc, toNat_bootAt_pc hk]
    omega
  rw [hstep, ht, hfb, hnext]
  rfl

theorem step_bootAt_end : step (bootAt 1792) = .next { State.reset with
    pc := 0x1000
    fault := .faulted ⟨.fetchBounds, 0x1000, none, 0x1000⟩ } :=
  cycle_fetchFault (bootAt 1792) rfl (by decide)

theorem run_of_step {s u : State} (h : step s = .next u) (k : Nat) :
    Host.Core.run core (k + 1) s = Host.Core.run core k u := by
  have hcore : core.step s = .next u := h
  simp only [Host.Core.run, hcore]

theorem run_one (s : State) : Host.Core.run core 1 s = step s := by
  obtain ⟨u, hu, -⟩ := exists_stepCase s
  rw [hu]
  exact run_of_step hu 0

/-- One more step after a run that answered a state. -/
theorem run_succ {k : Nat} {s t : State} (h : Host.Core.run core k s = .next t) :
    Host.Core.run core (k + 1) s = step t := by
  induction k generalizing s with
  | zero =>
    obtain rfl := Host.Outcome.next.inj h
    exact run_one s
  | succ k ih =>
    obtain ⟨u, hu, -⟩ := exists_stepCase s
    rw [run_of_step hu] at h ⊢
    exact ih h

theorem run_reset {k : Nat} (hk : k ≤ 1792) :
    Host.Core.run core k State.reset = .next (bootAt k) := by
  induction k with
  | zero => rfl
  | succ k ih => exact (run_succ (ih (Nat.le_of_lt hk))).trans (step_bootAt hk)

/-- Settles O20: by induction on the cycles, each of which fetches 0x0000, up to the fetch at
0x1000. -/
theorem bootWithoutProgram : Obligations.BootWithoutProgram :=
  ⟨fun _ hk => run_reset hk, (run_succ (run_reset (Nat.le_refl 1792))).trans step_bootAt_end⟩

end Sys2Proof.Claims
end

section
/-! PROOFS. Transfers through V0 and the stack, the skips that depend on a mode or a key, the key wait
and the font address (40_control.md R131, R133, R137, R139, 42_index_memory.md R212,
44_keys_timers.md R260 to R266). -/

namespace Sys2Proof.Claims

open Sys2Proof.Machine

/-- Settles O23: a byte and a 12-bit operand add without a wrap. -/
theorem jumpV0AddsOffset : Obligations.JumpV0AddsOffset := by
  intro nnn s
  exact ⟨_, rfl, onlyPc_setPc s _, toNat_jpV0_target (s.reg 0x0#4) nnn⟩

/-- Settles O24: the stack has room or is full, and the push says what each does. -/
theorem callPushesReturnAddress : Obligations.CallPushesReturnAddress := by
  intro nnn s
  refine ⟨fun hroom => ?_, fun hfull => raises_of_exec (exec_call_full nnn s hfull) rfl⟩
  refine ⟨_, exec_call_room nnn s hroom, rfl, State.byteAt_congr rfl rfl, State.reg_congr rfl,
    toNat_zext16 nnn (by decide), rfl, fun j => ?_⟩
  simp only [Fin.getElem_fin, Vector.getElem_set, eq_comm (a := s.sp.val)]

/-- Settles O25: the top entry is the slot below `SP`. -/
theorem returnPopsReturnAddress : Obligations.ReturnPopsReturnAddress := by
  intro s
  refine ⟨fun j hj => ?_, fun hempty => raises_of_exec (exec_ret_empty s hempty) rfl⟩
  have hindex : s.sp.val - 1 = j.val := by omega
  refine ⟨_, exec_ret_some s (by omega), rfl, State.byteAt_congr rfl rfl,
    State.reg_congr rfl, ?_, hindex⟩
  simp only [hindex, Fin.getElem_fin]

/-- Settles O26: RET takes the slot CALL wrote and steps `SP` back. -/
theorem returnUndoesCall : Obligations.ReturnUndoesCall := by
  intro nnn s hroom
  refine ⟨_, exec_call_room nnn s hroom, fun t' hstack hsp => ?_⟩
  have hval : t'.sp.val = s.sp.val + 1 := congrArg Fin.val hsp
  have hindex : t'.sp.val - 1 = s.sp.val := by omega
  refine ⟨_, exec_ret_some t' (by omega), ?_, Fin.ext hindex⟩
  simp only [hstack, hindex, Vector.getElem_set_self]

/-- Settles O29: what Vx is compared with is Vx itself in mode SELF and Vy in mode FIXED. -/
theorem skipIfRegistersEqual : Obligations.SkipIfRegistersEqual := by
  intro x y s
  refine ⟨fun hself => skips_of_exec_eq_skipIf rfl ?_, fun hfixed => skips_of_exec_eq_skipIf rfl ?_⟩
  · have hoperand : seOperand x y s = s.reg x := by simp only [seOperand, hself]
    simp [hoperand]
  · have hoperand : seOperand x y s = s.reg y := by simp only [seOperand, hfixed]
    rw [hoperand, beq_iff_eq]

/-- Settles O39: five times a byte fits in 16 bits. -/
theorem fontAddress : Obligations.FontAddress := by
  intro x s
  have hv := (s.reg x).isLt
  refine ⟨_, rfl, onlyIndex_setI s _, ?_⟩
  rw [State.setI_i, glyphAddr, BitVec.toNat_ofNat]
  omega

/-- The key a register in range names. -/
theorem pressed_setWidth {s : State} {v : Byte} {k : Fin 16} (hv : v.toNat = k.val) :
    s.pressed (v.setWidth 4) = s.key[k] := by
  have hk : (v.setWidth 4).toNat = k.val := by
    rw [BitVec.toNat_setWidth, hv]
    exact Nat.mod_eq_of_lt k.isLt
  simp only [State.pressed, hk, Fin.getElem_fin]

theorem skips_key {s : State} {x : Nibble} {k : Fin 16} (hx : (s.reg x).toNat = k.val) :
    Skips (.skp x) s (s.key[k] = true) ∧ Skips (.sknp x) s (s.key[k] = false) := by
  have hin : (s.reg x).toNat ≤ 15 := by omega
  refine ⟨skips_of_exec_eq_skipIf (exec_skp_in x s hin) ?_,
    skips_of_exec_eq_skipIf (exec_sknp_in x s hin) ?_⟩
  · rw [pressed_setWidth hx]
  · rw [pressed_setWidth hx, Bool.not_eq_true']

/-- Settles O50: in range the key is the one Vx names, out of range both raise with Vx as info. -/
theorem skipsOnKeys : Obligations.SkipsOnKeys := by
  intro x s
  refine ⟨fun k hx => skips_key hx, fun hout => ?_⟩
  have hinfo : zext16 (s.reg x) = BitVec.ofNat 16 (s.reg x).toNat := (BitVec.ofNat_toNat 16 _).symm
  exact ⟨raises_of_exec (exec_skp_out x s hout) hinfo,
    raises_of_exec (exec_sknp_out x s hout) hinfo⟩

/-- Settles O56: the skips are tested in the state the key write leaves, whose registers are as
before. -/
theorem keypadWriteIsSeen : Obligations.KeypadWriteIsSeen := by
  intro keys s
  exact ⟨writeKeypad keys s, rfl, rfl, rfl, fun x k hx => skips_key (s := writeKeypad keys s) hx⟩

theorem ofNat_fin_val (j : Fin 16) : BitVec.ofNat 4 j.val = BitVec.ofFin j := by
  apply BitVec.eq_of_toNat_eq
  rw [BitVec.toNat_ofNat]
  exact Nat.mod_eq_of_lt j.isLt

/-- The first pressed key of the rising list is the least one. -/
theorem leastPressed_eq_some {s : State} {k : Fin 16} (hk : s.key[k] = true)
    (hleast : ∀ j : Fin 16, j < k → s.key[j] = false) :
    s.leastPressed = some (BitVec.ofFin k) := by
  have hpressed (j : Fin 16) : s.pressed (BitVec.ofNat 4 j.val) = s.key[j] := by
    rw [ofNat_fin_val]
    rfl
  have hfind : (List.range 16).find? (fun n => s.pressed (BitVec.ofNat 4 n)) = some k.val := by
    refine List.find?_range_eq_some.mpr ⟨?_, List.mem_range.mpr k.isLt, fun j hj => ?_⟩
    · rw [hpressed k, hk]
    · have hreleased := hpressed ⟨j, by omega⟩
      rw [hleast ⟨j, by omega⟩ hj] at hreleased
      exact congrArg (!·) hreleased
  rw [State.leastPressed, List.find?_map]
  simp only [Function.comp_def, hfind, Option.map_some, ofNat_fin_val]

/-- Settles O51: no key found goes back to the instruction, and the key found is the least one. -/
theorem waitForKey : Obligations.WaitForKey := by
  intro x s
  constructor
  · intro hkeys
    have hnone := (leastPressed_eq_none_iff_key s).mpr hkeys
    exact ⟨_, exec_ldVxK_none x s hnone, onlyPc_setPc s _, rfl⟩
  · intro k hk hleast
    have hexec := exec_ldVxK_some x _ s (leastPressed_eq_some hk hleast)
    have hvalue : ((BitVec.ofFin k : Nibble).setWidth 8).toNat = k.val :=
      BitVec.toNat_setWidth_of_le (by decide)
    have hother : ∀ j, j ≠ x →
        (s.setReg x ((BitVec.ofFin k : Nibble).setWidth 8)).reg j = s.reg j :=
      fun j hj => State.reg_setReg_other s _ hj
    have hsame := State.reg_setReg_same s x ((BitVec.ofFin k : Nibble).setWidth 8)
    refine ⟨_, hexec, ?_⟩
    by_cases hclear : s.cfg.fx0aClearKey = true
    · rw [if_pos hclear]
      refine ⟨rfl, State.byteAt_congr rfl rfl, (congrArg BitVec.toNat hsame).trans hvalue, hother,
        fun j => ?_⟩
      simp [hclear, Vector.getElem_set, Fin.ext_iff, eq_comm]
    · rw [if_neg hclear]
      refine ⟨rfl, State.byteAt_congr rfl rfl, (congrArg BitVec.toNat hsame).trans hvalue, hother,
        fun j => ?_⟩
      rw [if_neg fun h => hclear h.1]
      rfl

/-- Settles O14: each field by the definition of the constructed state. -/
theorem resetState : Obligations.ResetState := by
  refine ⟨fun c => ?_, rfl, rfl, rfl, rfl, rfl, rfl, rfl, rfl⟩
  refine ⟨fun j => ?_, rfl, rfl, rfl, rfl, rfl, rfl, fun j => ?_, fun k => ?_, pixel_clearScreen,
    rfl, rfl, fun a => ?_, fun a ha _ => ?_⟩
  · simp [State.constructed, State.reg]
  · simp [State.constructed]
  · simp [State.constructed]
  · exact dif_pos a.isLt
  · exact dif_neg (Nat.not_lt.mpr ha)

end Sys2Proof.Claims
end

section
/-! PROOFS. The flag operations and the random byte (41_alu.md R170, R177 to R183): the writeback is
said once, and each operation adds only the values of its result and its flag. -/

namespace Sys2Proof.Claims

open Sys2Proof.Machine

theorem toNat_flagByte (f : Bool) : (flagByte f).toNat = f.toNat := by cases f <;> rfl

theorem toNat_flagByte_decide (p : Prop) [Decidable p] :
    (flagByte (decide p)).toNat = if p then 1 else 0 := by
  by_cases h : p <;> simp [toNat_flagByte, h]

/-- A bit of a byte as a flag. -/
theorem toNat_flagByte_getLsbD (a : Byte) (k : Nat) :
    (flagByte (a.getLsbD k)).toNat = a.toNat / 2 ^ k % 2 := by
  rw [toNat_flagByte]
  exact Nat.toNat_testBit a.toNat k

/-- An instruction whose meaning is a flag writeback leaves the result and the flag (R170). -/
theorem resultAndFlag_of_exec {i : Instr} {s : State} {x : Nibble} {res : Byte} {f : Bool}
    {r fl : Nat} (hexec : exec i s = .next (commitFlag x res f s)) (hres : res.toNat = r)
    (hflag : (flagByte f).toNat = fl) : ResultAndFlag i s x r fl := by
  refine ⟨_, hexec, onlyRegs_commitFlag s x res f, fun hx => ⟨?_, ?_⟩, fun hx => ?_⟩
  · rw [reg_commitFlag, if_neg fun h => hx h.1, if_pos rfl, hres]
  · rw [reg_commitFlag, if_pos ⟨rfl, .inr hx⟩, hflag]
  · subst hx
    rw [reg_commitFlag]
    by_cases hlast : s.cfg.vfLast = true
    · rw [if_pos ⟨rfl, .inl hlast⟩, if_pos hlast, hflag]
    · rw [if_neg fun h => h.2.elim hlast fun h => h rfl, if_pos rfl, if_neg hlast, hres]

/-- Settles O32: byte addition is the sum modulo 256, and the carry is its test. -/
theorem addRegistersCarry : Obligations.AddRegistersCarry := fun x y s =>
  resultAndFlag_of_exec rfl (BitVec.toNat_add (s.reg x) (s.reg y)) (toNat_flagByte_decide _)

theorem toNat_byte_sub (a b : Byte) : (a - b).toNat = (256 + a.toNat - b.toNat) % 256 := by
  have hb := b.isLt
  rw [BitVec.toNat_sub]
  congr 1
  omega

/-- Settles O33: byte subtraction is the difference modulo 256, and the flag its strict test. -/
theorem subtractNoBorrow : Obligations.SubtractNoBorrow := fun x y s =>
  ⟨resultAndFlag_of_exec rfl (toNat_byte_sub (s.reg x) (s.reg y)) (toNat_flagByte_decide _),
    resultAndFlag_of_exec rfl (toNat_byte_sub (s.reg y) (s.reg x)) (toNat_flagByte_decide _)⟩

/-- Settles O34: the bit shifted out is the remainder by 2, or the quotient by 128. -/
theorem shiftsByOne : Obligations.ShiftsByOne := by
  intro x y s src hsrc
  have hoperand : (shiftOperand x y s).toNat = src := by
    rw [hsrc, shiftOperand]
    cases s.cfg.shiftSource <;> rfl
  have hlt : src < 256 := hoperand ▸ (shiftOperand x y s).isLt
  refine ⟨resultAndFlag_of_exec rfl ?_ ?_, resultAndFlag_of_exec rfl ?_ ?_⟩
  · rw [BitVec.toNat_ushiftRight, hoperand, Nat.shiftRight_eq_div_pow]
  · rw [shiftRightFlag, toNat_flagByte_getLsbD, hoperand, Nat.pow_zero, Nat.div_one]
  · rw [BitVec.toNat_shiftLeft, hoperand, Nat.shiftLeft_eq]
  · rw [shiftLeftFlag, toNat_flagByte_getLsbD, hoperand]
    omega

/-- Settles O35: AND acts bit by bit, with zero and the identity at the two extreme masks. -/
theorem randomIsMaskedDraw : Obligations.RandomIsMaskedDraw := by
  intro x kk s
  have hx : ((drawByte s).2.setReg x ((drawByte s).1 &&& kk)).reg x =
      Config.freeByte s.draws &&& kk :=
    State.reg_setReg_same _ x _
  refine ⟨_, rfl, rfl, State.byteAt_congr rfl rfl, fun j hj => State.reg_setReg_other _ _ hj,
    fun k => ?_, fun hzero => ?_, fun hones => ?_⟩
  · rw [hx, BitVec.getLsbD_and]
  · rw [hx, hzero]
    exact BitVec.and_zero
  · rw [hx, hones]
    exact BitVec.and_allOnes

end Sys2Proof.Claims
end

section
/-! PROOFS. Drawing (43_display.md R240 to R245) from the law of the drawing loops, and the row-major
view of the screen (60_exceptions.md R292). -/

namespace Sys2Proof.Claims

open Sys2Proof.Machine

/-- The statements' hit pixels are the ones the loops hit, with the sprite bytes read from memory. -/
theorem spriteHits_iff (s : State) (x y n : Nibble) (c : Fin 64) (r : Fin 32) :
    SpriteHits s x y n c r ↔
      SpriteHitsFrom (s.reg x).toNat (s.reg y).toNat 0 (s.bytesAt (indexAddr s) n.toNat) c r := by
  have hlen : (s.bytesAt (indexAddr s) n.toNat).length = n.toNat := Memory.length_readMany ..
  have hbyte : ∀ row, row < n.toNat →
      (s.bytesAt (indexAddr s) n.toNat).getD row 0 = s.byteAt (s.i.toNat + row) :=
    fun row hrow => Memory.getD_readMany s.cfg s.mem _ _ row hrow
  constructor
  · rintro ⟨row, col, hrow, hcol, hbit, hc, hr⟩
    refine ⟨row, col, by rwa [hlen], hcol, by rwa [hbyte row hrow], Fin.ext hc, Fin.ext ?_⟩
    rw [hr, Nat.zero_add]
    rfl
  · rintro ⟨row, col, hrow, hcol, hbit, hc, hr⟩
    rw [hlen] at hrow
    rw [hbyte row hrow] at hbit
    rw [Nat.zero_add] at hr
    exact ⟨row, col, hrow, hcol, hbit, congrArg Fin.val hc, congrArg Fin.val hr⟩

/-- A sprite has at most 15 rows. -/
theorem length_sprite_le (n : Nibble) (s : State) :
    (s.bytesAt (indexAddr s) n.toNat).length ≤ 32 := by
  have hlen : (s.bytesAt (indexAddr s) n.toNat).length = n.toNat := Memory.length_readMany ..
  have hn := n.isLt
  omega

theorem pixel_spriteDrawn_ne_iff (x y n : Nibble) (s : State) (c : Fin 64) (r : Fin 32) :
    pixel (spriteDrawn x y n s).1 c r ≠ pixel s.fb c r ↔ SpriteHits s x y n c r := by
  rw [spriteHits_iff]
  obtain ⟨hpixel, -⟩ := pixel_drawRows (s.reg x).toNat (s.reg y).toNat 0
    (s.bytesAt (indexAddr s) n.toNat) (s.fb, false) (length_sprite_le n s)
  exact hpixel c r

theorem flag_spriteDrawn_iff (x y n : Nibble) (s : State) :
    (spriteDrawn x y n s).2 = true ↔ ∃ c r, SpriteHits s x y n c r ∧ pixel s.fb c r = true := by
  simp only [spriteHits_iff]
  obtain ⟨-, hflag⟩ := pixel_drawRows (s.reg x).toNat (s.reg y).toNat 0
    (s.bytesAt (indexAddr s) n.toNat) (s.fb, false) (length_sprite_le n s)
  exact hflag.trans (by simp)

/-- The state DRW leaves. -/
def afterDraw (x y n : Nibble) (s : State) : State :=
  { s with fb := (spriteDrawn x y n s).1 }.setReg vF (flagByte (spriteDrawn x y n s).2)

theorem exec_drw_of_inside {x y n : Nibble} {s : State} (h : SpriteInside s n) :
    exec (.drw x y n) s = .next (afterDraw x y n s) := exec_drw_inside x y n s h

theorem afterDraw_vF (x y n : Nibble) (s : State) :
    (afterDraw x y n s).reg 0xF#4 = flagByte (spriteDrawn x y n s).2 := State.reg_setReg_same _ _ _

theorem flagByte_eq_one_iff (f : Bool) : flagByte f = 0x01#8 ↔ f = true := by cases f <;> decide

/-- Settles O46: a pixel that went off was on and hit, and a pixel that was on and hit went off. -/
theorem drawTogglesSpritePixels : Obligations.DrawTogglesSpritePixels := by
  intro x y n s
  refine ⟨fun hin => ?_, fun hout => ?_⟩
  · have hpixel := pixel_spriteDrawn_ne_iff x y n s
    refine ⟨_, exec_drw_of_inside hin, rfl, State.byteAt_congr rfl rfl,
      fun j hj => State.reg_setReg_other _ _ hj, hpixel, ?_, fun hstays => ?_⟩
    · rintro ⟨c, r, hon, hoff⟩
      have hhit : SpriteHits s x y n c r := (hpixel c r).mp (by
        rw [hon]
        exact ne_true_of_eq_false hoff)
      rw [afterDraw_vF, flagByte_eq_one_iff, flag_spriteDrawn_iff]
      exact ⟨c, r, hhit, hon⟩
    · have hflag : (spriteDrawn x y n s).2 = false := by
        rw [← Bool.not_eq_true, flag_spriteDrawn_iff]
        rintro ⟨c, r, hhit, hon⟩
        exact (hpixel c r).mpr hhit ((hstays c r hon).trans hon.symm)
      rw [afterDraw_vF, hflag]
      rfl
  · obtain ⟨hrows, hlast⟩ := not_or.mp hout
    exact raises_of_exec (exec_drw_outside x y n s hrows (Nat.not_le.mp hlast)) rfl

/-- Which pixels a sprite hits depends on the origin, `I` and the sprite bytes alone. -/
theorem spriteHits_congr {s s' : State} {x y n : Nibble} (hx : s'.reg x = s.reg x)
    (hy : s'.reg y = s.reg y) (hi : s'.i = s.i)
    (hbytes : ∀ row, row < n.toNat → s'.byteAt (s.i.toNat + row) = s.byteAt (s.i.toNat + row))
    (c : Fin 64) (r : Fin 32) : SpriteHits s' x y n c r ↔ SpriteHits s x y n c r := by
  simp only [SpriteHits, hx, hy, hi]
  refine exists₂_congr fun row col => and_congr_right fun hrow => ?_
  rw [hbytes row hrow]

/-- A Boolean toggled twice, or left alone twice, is what it was. -/
theorem eq_of_toggled_alike : ∀ a b c : Bool, (c ≠ b ↔ b ≠ a) → c = a := by decide

/-- Settles O47: both draws toggle the same pixels, so the second brings each back, and it finds a hit
pixel on exactly where the first found it off. -/
theorem drawTwiceRestoresScreen : Obligations.DrawTwiceRestoresScreen := by
  intro x y n s t s' u hin hexec hfb hx hy hi hbytes hexec'
  have hin' : SpriteInside s' n := by
    unfold SpriteInside
    rwa [hi]
  obtain rfl := Host.Outcome.next.inj ((exec_drw_of_inside hin).symm.trans hexec)
  obtain rfl := Host.Outcome.next.inj ((exec_drw_of_inside hin').symm.trans hexec')
  have hhits := spriteHits_congr hx hy hi hbytes
  have hfirst : ∀ c r, pixel s'.fb c r ≠ pixel s.fb c r ↔ SpriteHits s x y n c r := by
    rw [hfb]
    exact pixel_spriteDrawn_ne_iff x y n s
  have hsecond := pixel_spriteDrawn_ne_iff x y n s'
  refine ⟨fb_ext fun c r => ?_, ?_⟩
  · have hagree : pixel (spriteDrawn x y n s').1 c r ≠ pixel s'.fb c r ↔
        pixel s'.fb c r ≠ pixel s.fb c r := by rw [hsecond, hhits, hfirst]
    show pixel (spriteDrawn x y n s').1 c r = pixel s.fb c r
    exact eq_of_toggled_alike _ _ _ hagree
  · rw [afterDraw_vF, flagByte_eq_one_iff, flag_spriteDrawn_iff]
    refine exists₂_congr fun c r => ?_
    rw [hhits c r]
    refine and_congr_right fun hhit => ?_
    rw [Bool.eq_not_of_ne ((hfirst c r).mpr hhit), Bool.not_eq_true']

/-- Bits 7 and 6 alone are set in 0xC0. -/
theorem getLsbD_twoPixels {col : Nat} (h : col < 8) :
    (0xC0#8).getLsbD (7 - col) = true ↔ col = 0 ∨ col = 1 := by
  interval_cases col <;> decide

/-- Settles O48: the two set bits land on columns 63 and 64, which wraps to 0. -/
theorem drawWrapsAtColumn63 : Obligations.DrawWrapsAtColumn63 := by
  intro x y s hx hI hbyte
  have hin : SpriteInside s 1 := .inr (by simpa using hI)
  refine ⟨_, exec_drw_of_inside hin, fun c r => ?_⟩
  refine (pixel_spriteDrawn_ne_iff x y 1 s c r).trans ?_
  constructor
  · rintro ⟨row, col, hrow, hcol, hbit, hc, hr⟩
    obtain rfl : row = 0 := Nat.lt_one_iff.mp hrow
    rw [Nat.add_zero, hbyte, getLsbD_twoPixels hcol] at hbit
    rw [hx] at hc
    refine ⟨?_, hr⟩
    rcases hbit with rfl | rfl
    · exact .inl (Fin.ext hc)
    · exact .inr (Fin.ext hc)
  · rintro ⟨hc, hr⟩
    have hbit {col : Nat} (hcol : (0xC0#8).getLsbD (7 - col) = true) :
        (s.byteAt (s.i.toNat + 0)).getLsbD (7 - col) = true := by rwa [Nat.add_zero, hbyte]
    rcases hc with rfl | rfl
    · exact ⟨0, 0, by decide, by decide, hbit (by decide), by rw [hx]; decide, hr⟩
    · exact ⟨0, 1, by decide, by decide, hbit (by decide), by rw [hx]; decide, hr⟩

/-- The view is the rows of the screen, one after the other. -/
theorem readFramebuffer_eq (s : State) : readFramebuffer s = s.fb.flatten.toList := by
  have hrows : s.fb.flatten.toList = (s.fb.toArray.map Vector.toArray).flatten.toList := rfl
  rw [hrows, Array.toList_flatten, Array.toList_map, List.map_map]
  rfl

/-- Settles O59: element `r*64 + c` of the flattened rows is element `c` of row `r`. -/
theorem framebufferViewIsRowMajor : Obligations.FramebufferViewIsRowMajor := by
  intro s
  refine ⟨rfl, ?_, fun c r => ?_⟩
  · rw [readFramebuffer_eq, Vector.length_toList]
  · have hc := c.isLt
    have hr := r.isLt
    have hdiv : (r.val * 64 + c.val) / 64 = r.val := by omega
    have hmod : (r.val * 64 + c.val) % 64 = c.val := by omega
    rw [readFramebuffer_eq, Vector.getElem?_toList, Vector.getElem?_flatten, dif_pos (by omega)]
    simp only [hdiv, hmod]
    rfl

end Sys2Proof.Claims
end
